-- ==== Sys2Proof/Word.lean ====
section
/-! DEFINITION. The words of the C200 frame codec block: a data byte, a bus address, a buffer length and a
transaction word (spec 00_scope.md R7: `DATA_W` = 8, `ADDR_W` = 11, `LEN_W` = 10; 30_encoding.md R54: 20 bits). -/

namespace Sys2Proof

/-- A byte: every register, buffer cell and data transfer of the block (R7 `DATA_W`, R8, R42). -/
abbrev Byte := BitVec 8

/-- A host bus address; it names one byte (R7 `ADDR_W`, R40). -/
abbrev BusAddr := BitVec 11

/-- A buffer length as IN_LEN and OUT_LEN hold it (R7 `LEN_W`, R29). -/
abbrev Len := BitVec 10

/-- A host bus transaction word (R54). -/
abbrev TransWord := BitVec 20

end Sys2Proof
end

