-- ==== Sys2Proof/Syntax.lean ====
section
/-! DEFINITION. The instructions: the four commands a host starts through the CMD register and the two host bus
transactions, one constructor per row of spec/opcode_table.json (spec 00_scope.md R1, 30_encoding.md R51 and R54). -/

namespace Sys2Proof

/-- One constructor per row of the opcode table. A command has no operand fields: it reads and writes fixed state
(R51, R53). A transaction names its address absolutely, a write also its data byte (R54, R98). -/
inductive Instr where
  /-- FRAME, command byte 0x01: wrap `IN[0:IN_LEN]` in an outbound envelope (R70). -/
  | frame
  /-- UNFRAME, command byte 0x02: validate the reply `IN[0:IN_LEN]` and strip its envelope (R75). -/
  | unframe
  /-- LOADKEY, command byte 0x03: take KEY from the device info `IN[0:IN_LEN]` (R85). -/
  | loadkey
  /-- KEYXOR, command byte 0x04: XOR `IN[0:IN_LEN]` with KEY (R88). -/
  | keyxor
  /-- HOST_WR, `wr A, V`: the host writes byte `v` at bus address `a` (R93). -/
  | hostWr (a : BusAddr) (v : Byte)
  /-- HOST_RD, `rd A -> t`: the host reads the byte at bus address `a` (R94). -/
  | hostRd (a : BusAddr)
  deriving DecidableEq, Repr

end Sys2Proof
end

