-- ==== Sys2Proof/WellFormed.lean ====
section
/-! DEFINITION. Which instructions and which words are well formed. An `Instr` cannot hold a bad operand: its fields
have exactly the widths of the encoding (spec 30_encoding.md R54, R57). What can be ill formed is a 20-bit word that
is no transaction (R54) and a byte that is no command (R52). -/

namespace Sys2Proof

/-- Every term of `Instr` is well formed: commands have no fields (R51) and a transaction's fields have the
widths of R54, so no check remains. -/
def Instr.wellFormed : Instr → Bool
  | .frame | .unframe | .loadkey | .keyxor => true
  | .hostWr _ _ => true
  | .hostRd _ => true

/-- A 20-bit word is a transaction unless it is a read (`W`, bit 19, is 0) whose data field (bits 7:0) is not 0x00 (R54). -/
def TransWord.wellFormed (w : TransWord) : Bool :=
  w.getLsbD 19 || w.extractLsb' 0 8 == 0x00#8

/-- A byte is a command byte if it is one of the four opcodes of R51; 0x00 and 0x05 to 0xFF are reserved (R52). -/
def Byte.isCommand (b : Byte) : Bool :=
  0x01#8 ≤ b && b ≤ 0x04#8

end Sys2Proof
end

