-- ==== Sys2Proof/Decode.lean ====
section
/-! DEFINITION. The block's two decoders and their inverse. The block decodes the command byte held in CMD
(spec 30_encoding.md R51, R52) and host bus transaction words (R54). Both decoders are total and reject by name. -/

namespace Sys2Proof

/-- Why a decoder rejects. -/
inductive DecodeError where
  /-- The command byte is 0x00 or 0x05 to 0xFF and selects no command (R52). -/
  | reservedCommand
  /-- `read word with data`: the word has `W` = 0 and `D` ≠ 0 and is not a transaction (R54). -/
  | readWordWithData
  deriving DecidableEq, Repr

/-- What a decoder is given: a command byte or a transaction word (R50). -/
inductive Encoded where
  /-- The data byte of a write to CMD, as CMD_LAST holds it (R51). -/
  | command (b : Byte)
  /-- A 20-bit host bus transaction word (R54). -/
  | transaction (w : TransWord)
  deriving DecidableEq, Repr

/-- The width in bits of an encoding; neither form has a compressed or prefixed variant (R57). -/
def Encoded.width : Encoded → Nat
  | .command _ => 8
  | .transaction _ => 20

/-- Field `W`, bit 19 of a transaction word: 1 is a write (R54). -/
def TransWord.isWrite (w : TransWord) : Bool := w.getLsbD 19

/-- Field `A`, bits 18:8 of a transaction word (R54). -/
def TransWord.addr (w : TransWord) : BusAddr := w.extractLsb' 8 11

/-- Field `D`, bits 7:0 of a transaction word (R54). -/
def TransWord.data (w : TransWord) : Byte := w.extractLsb' 0 8

/-- The command decoder: the whole byte is compared with the opcode, mask 0xFF (R51); any other byte is reserved (R52). -/
def decodeCommand (b : Byte) : Except DecodeError Instr :=
  if b = 0x01#8 then .ok .frame
  else if b = 0x02#8 then .ok .unframe
  else if b = 0x03#8 then .ok .loadkey
  else if b = 0x04#8 then .ok .keyxor
  else .error .reservedCommand

/-- The transaction decoder: `1aaaaaaaaaaadddddddd` is a write, `0aaaaaaaaaaa00000000` a read, and a read word with
data is refused by name (R54). -/
def decodeTransaction (w : TransWord) : Except DecodeError Instr :=
  if w.isWrite then .ok (.hostWr w.addr w.data)
  else if w.data = 0x00#8 then .ok (.hostRd w.addr)
  else .error .readWordWithData

/-- The block's decoder (R50). -/
def decode : Encoded → Except DecodeError Instr
  | .command b => decodeCommand b
  | .transaction w => decodeTransaction w

/-- The transaction word `1 A[10:0] V[7:0]` of a host write (R54). -/
def writeWord (a : BusAddr) (v : Byte) : TransWord := (1#1 ++ a) ++ v

/-- The transaction word `0 A[10:0] 00000000` of a host read (R54). -/
def readWord (a : BusAddr) : TransWord := (0#1 ++ a) ++ 0x00#8

/-- The encoding of an instruction, written from the opcode table: a command's byte (R51), a transaction's word (R54). -/
def encode : Instr → Encoded
  | .frame => .command 0x01#8
  | .unframe => .command 0x02#8
  | .loadkey => .command 0x03#8
  | .keyxor => .command 0x04#8
  | .hostWr a v => .transaction (writeWord a v)
  | .hostRd a => .transaction (readWord a)

/-- The encoding that `nbits` bits of value `w` stand for, as spec/opcode_table.json lays its rows out: a command row
has 8 bits, a transaction row 20 bits (24 in whole bytes); a value with a bit set above the row's width is none. -/
def encodedOfTableWord (nbits w : Nat) : Option Encoded :=
  if nbits ≤ 8 then
    if w < 2 ^ 8 then some (.command (BitVec.ofNat 8 w)) else none
  else if nbits ≤ 24 then
    if w < 2 ^ 20 then some (.transaction (BitVec.ofNat 20 w)) else none
  else none

/-- The instruction the decoder reads from an opcode-table row's word: bit 0 is the least significant bit. -/
def decodeTableWord (nbits w : Nat) : Option Instr :=
  match encodedOfTableWord nbits w with
  | some e => (decode e).toOption
  | none => none

end Sys2Proof
end

