-- ==== Sys2Proof/Config.lean ====
section
/-! DEFINITION. What the implementation fixes: the parameters of spec 00_scope.md R7, each under its own name so that
a model can be re-instantiated (R7, R87, decision D27), the bases of the two buffers (R30, R31), and the one value the
spec leaves open, the completion latency (R66, D32). -/

namespace Sys2Proof.Config

/-- `HDR_OUT`: the header byte of an outbound frame (R7). -/
def hdrOut : Byte := 0x86

/-- `HDR_IN`: the header byte a reply must carry (R7). -/
def hdrIn : Byte := 0xAA

/-- `MAX_PAYLOAD`: the largest payload FRAME accepts (R7, R71). -/
def maxPayload : Nat := 254

/-- `KEY_INDEX`: the zero-based index of the session key in device info (R7, R87, conflict C1). -/
def keyIndex : Nat := 4

/-- `KEY_MIN_INFO` = `KEY_INDEX` + 1: the smallest device info LOADKEY accepts; it moves with `KEY_INDEX` (R7, R87). -/
def keyMinInfo : Nat := keyIndex + 1

/-- `BUF_SIZE`: the size in bytes of IN_BUF and of OUT_BUF (R7, R30, R31). -/
def bufSize : Nat := 512

/-- The bus address of `IN[0]` (R30). -/
def inBase : Nat := 0x200

/-- The bus address of `OUT[0]` (R31). -/
def outBase : Nat := 0x400

/-- FREE VALUE. For the `n`-th command ever started (counting from 0), how many host steps its completion step stays
delayed. The spec gives no value: the time is "unbounded and unknown", any finite number of host steps (R66, R136, D32).
Nothing in Lean can evaluate it, so every claim holds whatever the latency is. Assumption log entry 1. -/
opaque latency : Nat → Nat

end Sys2Proof.Config
end

