-- ==== Sys2Proof/Machine/State.lean ====
section
/-! DEFINITION. The state of the machine: the block's registers and buffers (spec 10_state.md R20 to R31), the
bookkeeping the spec gives a model of it (the written marks of R32, the fault record of R34), and the second agent,
the host (40_command_cycle.md R60): the operations it has still to do, the bytes its reads returned, and the schedule. -/

namespace Sys2Proof.Machine

/-- A model fault (60_exceptions.md R110): "an outcome the block does not report and a program must never cause". The
hardware would go on with some value or ignore the access; the model stops, so each is SAFE (toward unprovable, D15, D16). -/
inductive Fault where
  /-- `UNINIT_INPUT`: raised by a command step whose input holds a byte of IN_BUF never written since reset (R63). Safe. -/
  | uninitInput
  /-- `BUSY_ACCESS`: raised by any host access but a read of STATUS while a command is pending (R96). Safe. -/
  | busyAccess
  /-- `WRITE_READ_ONLY`: raised by a host write to STATUS, ERRCODE, KEY, OUT_LEN or OUT_BUF (R95). Safe. -/
  | writeReadOnly
  /-- `RESERVED_ACCESS`: raised by a host read or write of 0x008 to 0x1FF or 0x600 to 0x7FF (R41). Safe. -/
  | reservedAccess
  /-- `READ_UNWRITTEN`: raised by a host read of a byte of IN_BUF never written since reset (R97). Safe. -/
  | readUnwritten
  /-- `READ_STALE`: raised by a host read of `OUT[i]` with `i >= OUT_LEN` (R97). Safe. -/
  | readStale
  deriving DecidableEq, Repr

/-- Why the model has no meaning for what it is asked to do. -/
inductive Refusal where
  /-- An instruction that has no meaning yet; raised by a refused arm of `exec` only (there is none). Safe. -/
  | notModelled (mnemonic : String)
  /-- `read word with data`: the host's next transaction word has `W` = 0 and `D` ≠ 0 and is no transaction; the
  decoder refuses it by this name (R54). Raised by the host's step. Safe. -/
  | readWordWithData
  /-- The host's program writes a host variable that no read has assigned yet. The spec gives such a program no
  meaning (R56 assigns `t` by a read before `copyout` uses it). Raised by the host's step. Safe. -/
  | unassignedHostVariable
  deriving DecidableEq, Repr

/-- One operation of the host's program, in the host syntax of 30_encoding.md R56. -/
inductive HostOp where
  /-- A real operation, `wr A, V` or `rd A -> t`, as its transaction word (R54). -/
  | txn (w : TransWord)
  /-- `wr A, t`, where `t` is the host variable the latest read assigned (the write of `copyout`, R56). -/
  | wrLast (a : BusAddr)
  /-- `wait`: repeat `rd 0x001 -> s` while `s[0]` = 1, one read at least (R56). -/
  | wait
  /-- The host (or the system around it) asserts the reset input (70_reset_and_hazards.md R125). -/
  | reset
  deriving DecidableEq, Repr

/-- The bytes of IN_BUF and OUT_BUF that hold a value, as (bus address, byte) pairs with addresses strictly rising.
An address that is not listed holds no value: for IN_BUF that is the written mark `W[i]` = 0 (R32), for OUT_BUF a byte
no command has written since reset (R126: "unspecified"). -/
abbrev Memory := List Host.Cell

/-- Everything the spec gives the machine. -/
structure State where
  /-- CMD_LAST: the last byte written to CMD (R23). -/
  cmdLast : Byte
  /-- STATUS bit 0, BUSY: a command is pending (R24). -/
  busy : Bool
  /-- STATUS bit 1, DONE (R25). -/
  done : Bool
  /-- STATUS bit 2, ERR (R26). -/
  err : Bool
  /-- STATUS bit 3, KEY_VALID (R28). -/
  keyValid : Bool
  /-- ERRCODE (R27). -/
  errCode : Byte
  /-- KEY, the session key byte (R28). -/
  key : Byte
  /-- IN_LEN, the 10-bit value of IN_LEN_HI[1:0] : IN_LEN_LO (R29). -/
  inLen : Len
  /-- OUT_LEN, the 10-bit value of OUT_LEN_HI[1:0] : OUT_LEN_LO (R29). -/
  outLen : Len
  /-- IN_BUF (bus 0x200 to 0x3FF, R30), with its written marks (R32), and OUT_BUF (bus 0x400 to 0x5FF, R31). -/
  mem : Memory
  /-- The fault record: the reason of the run's first model fault (R34, model only). -/
  faultRecord : Option Fault
  /-- Model's own: the operations the host has still to do, in its program order (R35, R47). -/
  program : List HostOp
  /-- Model's own: the bytes the host's reads returned, newest first: the host variables of `rd A -> t` (R56, R94). -/
  hostReads : List Byte
  /-- Model's own: how many host steps the pending command's completion step is still delayed (R66). -/
  delay : Nat
  /-- Model's own: how many commands have been started; the argument of the free value `Config.latency`. -/
  starts : Nat
  deriving DecidableEq, Repr

/-- The machine right after reset (R126): every register 0, no written mark, no readable result, fault record empty
(R34: "empty at the start of a run"), and a host that has nothing to do yet (the last four fields: log entry 2). -/
def State.reset : State where
  cmdLast := 0x00
  busy := false
  done := false
  err := false
  keyValid := false
  errCode := 0x00
  key := 0x00
  inLen := 0
  outLen := 0
  mem := []
  faultRecord := none
  program := []
  hostReads := []
  delay := 0
  starts := 0

end Sys2Proof.Machine
end

