-- ==== Sys2Proof/Machine/Operands.lean ====
section
/-! DEFINITION. Where an operand lies: the memory of the two buffers, the input sequence of a command (spec
30_encoding.md R53, 40_command_cycle.md R62 and R63) and the location a bus address names (20_memory.md R40). -/

namespace Sys2Proof.Machine

/-- The canonical form of a memory: addresses strictly rising, so equal memories are equal lists. An unlisted address
holds no value, so no entry can equal what an unlisted address reads as. -/
abbrev Memory.wf (m : Memory) : Prop := m.Pairwise (fun c d => c.1 < d.1)

/-- The byte held at bus address `a`, or none where no byte is held. -/
def Memory.read : Memory → Nat → Option Byte
  | [], _ => none
  | (b, v) :: m, a => if a = b then some v else Memory.read m a

/-- The memory with byte `v` at bus address `a`, in canonical form. -/
def Memory.write : Memory → Nat → Byte → Memory
  | [], a, v => [(a, v)]
  | (b, w) :: m, a, v =>
    if a < b then (a, v) :: (b, w) :: m
    else if a = b then (a, v) :: m
    else (b, w) :: Memory.write m a v

/-- The `n` bytes from address `a` on, or none if one of them holds no value. -/
def Memory.readSeq (m : Memory) : Nat → Nat → Option (List Byte)
  | _, 0 => some []
  | a, n + 1 =>
    match m.read a, m.readSeq (a + 1) n with
    | some b, some bs => some (b :: bs)
    | _, _ => none

/-- The memory with the bytes `bs` from address `a` on: byte 0 of a sequence is at the lowest address (R43). -/
def Memory.writeSeq : Memory → Nat → List Byte → Memory
  | m, _, [] => m
  | m, a, b :: bs => Memory.writeSeq (m.write a b) (a + 1) bs

/-- `IN[i]`, at bus address 0x200 + `i` (R30); none where its written mark `W[i]` is 0 (R32). -/
def inByte (s : State) (i : Nat) : Option Byte := s.mem.read (Config.inBase + i)

/-- The written mark `W[i]` (R32): the model stores it as the byte's being listed. -/
def written (s : State) (i : Nat) : Bool := (inByte s i).isSome

/-- `OUT[i]`, at bus address 0x400 + `i` (R31). -/
def outByte (s : State) (i : Nat) : Option Byte := s.mem.read (Config.outBase + i)

/-- A command's input `IN[0:IN_LEN]` in wire order (R30), or none where one of its bytes is unwritten (R63). -/
def input (s : State) : Option (List Byte) := s.mem.readSeq Config.inBase s.inLen.toNat

/-- `b[lo:hi]`: the bytes `b[lo] .. b[hi-1]`, empty when `hi <= lo` (R8). -/
def slice (b : List Byte) (lo hi : Nat) : List Byte := (b.take hi).drop lo

/-- `fold(s)`: start at 0, XOR every byte in sequence (R9). -/
def fold (s : List Byte) : Byte := s.foldl (fun c b => c ^^^ b) 0x00#8

/-- What a bus address names (R22, R40). -/
inductive Location where
  | cmd | status | errcode | key | inLenLo | inLenHi | outLenLo | outLenHi
  /-- `IN[i]`. -/
  | inBuf (i : Nat)
  /-- `OUT[i]`. -/
  | outBuf (i : Nat)
  /-- A reserved address (R41). -/
  | reserved
  deriving DecidableEq, Repr

/-- The register at bus address `n` (R22). -/
def registerAt : Nat → Location
  | 0 => .cmd
  | 1 => .status
  | 2 => .errcode
  | 3 => .key
  | 4 => .inLenLo
  | 5 => .inLenHi
  | 6 => .outLenLo
  | 7 => .outLenHi
  | _ => .reserved

/-- The address map of R40: the registers, a reserved range, IN_BUF, OUT_BUF, and a reserved range (R41). -/
def locate (a : BusAddr) : Location :=
  if a.toNat < 0x008 then registerAt a.toNat
  else if a.toNat < 0x200 then .reserved
  else if a.toNat < 0x400 then .inBuf (a.toNat - 0x200)
  else if a.toNat < 0x600 then .outBuf (a.toNat - 0x400)
  else .reserved

/-- The low byte register of a 10-bit length (R22, R42). -/
def lenLo (l : Len) : Byte := l.extractLsb' 0 8

/-- The high byte register of a 10-bit length: bits 1:0 are bits 9:8, bits 7:2 read 0 (R22, R29). -/
def lenHi (l : Len) : Byte := (l.extractLsb' 8 2).setWidth 8

/-- `l` with its bits 7:0 replaced by `v` (a write to IN_LEN_LO, R93). -/
def withLenLo (l : Len) (v : Byte) : Len := l.extractLsb' 8 2 ++ v

/-- `l` with its bits 9:8 replaced by `v[1:0]`; `v[7:2]` is discarded (a write to IN_LEN_HI, R29, R93). -/
def withLenHi (l : Len) (v : Byte) : Len := v.extractLsb' 0 2 ++ l.extractLsb' 0 8

end Sys2Proof.Machine
end

