-- ==== Sys2Proof/Machine/Flags.lean ====
section
/-! DEFINITION. The STATUS register (spec 10_state.md R22, R24 to R28) and the error codes a command completes with
(60_exceptions.md R111). -/

namespace Sys2Proof.Machine

/-- The byte a read of STATUS returns: `zext_8(KEY_VALID : ERR : DONE : BUSY)`; bits 7:4 are hardwired 0 (R22, R94). -/
def statusByte (s : State) : Byte :=
  (BitVec.ofBool s.keyValid ++ BitVec.ofBool s.err ++ BitVec.ofBool s.done ++ BitVec.ofBool s.busy).setWidth 8

/-- The error codes by name (R111). -/
inductive ErrorCode where
  | ok | header | checksum | short | encoding | infoShort | noKey | badLen | badCmd
  deriving DecidableEq, Repr

/-- The number ERRCODE receives for each code (R111). -/
def ErrorCode.toByte : ErrorCode → Byte
  | .ok => 0x00
  | .header => 0x01
  | .checksum => 0x02
  | .short => 0x03
  | .encoding => 0x04
  | .infoShort => 0x05
  | .noKey => 0x06
  | .badLen => 0x07
  | .badCmd => 0x08

/-- The value STATUS.ERR receives at completion: 1 exactly when the code is not 0x00 (R26, R61). -/
def errFlag (code : ErrorCode) : Bool := code.toByte != 0x00#8

end Sys2Proof.Machine
end

