-- ==== Sys2Proof/Machine/Ops.lean ====
section
/-! DEFINITION. The shared operations: starting and completing a command (spec 40_command_cycle.md R60, R61), the checks
common to every command (R62, R63), a bus read and a bus write (44_host_access.md R93, R94), reset (70_reset_and_hazards.md
R126) and recording a model fault (60_exceptions.md R110). The block has no traps: taking an error IS `complete`
with the error's code (R113), and there is no return from one (R114). -/

namespace Sys2Proof.Machine

open Host (Outcome)

/-- Go on from a next state; a fault or a refusal stops. -/
def andThen {σ τ φ ρ : Type} (o : Outcome σ φ ρ) (k : σ → Outcome τ φ ρ) : Outcome τ φ ρ :=
  match o with
  | .next s => k s
  | .fault r => .fault r
  | .refused r => .refused r

/-- Command start (R60): the write of `v` to CMD while STATUS.BUSY = 0. The completion step's delay is the free value
of this command (R66). -/
def startCommand (v : Byte) (s : State) : State :=
  { s with
    cmdLast := v
    done := false
    err := false
    errCode := 0x00
    outLen := 0
    busy := true
    delay := Config.latency s.starts
    starts := s.starts + 1 }

/-- Command completion, `complete(code)` (R61); an error is taken in the same way (R113). With no command pending,
nothing is delayed. -/
def complete (code : ErrorCode) (s : State) : State :=
  { s with
    errCode := code.toByte
    err := errFlag code
    done := true
    busy := false
    delay := 0 }

/-- End a command with its result: an error code and no result (R64), or the bytes `out` in OUT_BUF from `OUT[0]` on,
OUT_LEN their number and code OK (R70, R75, R88). -/
def deliver (result : Except ErrorCode (List Byte)) (s : State) : State :=
  match result with
  | .error code => complete code s
  | .ok out =>
    complete .ok
      { s with
        mem := s.mem.writeSeq Config.outBase out
        outLen := BitVec.ofNat 10 out.length }

/-- The checks common to every command after its opcode, in the order of R62: IN_LEN above `BUF_SIZE` completes with
ERR_BADLEN (after `onBadLen`, which is LOADKEY's clearing of KEY_VALID, R86), an unwritten input byte is the model fault
UNINIT_INPUT (R63), and otherwise the command's own rule runs on the input `IN[0:IN_LEN]`. -/
def withInput (onBadLen : State → State) (body : List Byte → State → State) (s : State) :
    Outcome State Fault Refusal :=
  if Config.bufSize < s.inLen.toNat then .next (complete .badLen (onBadLen s))
  else
    match input s with
    | none => .fault .uninitInput
    | some p => .next (body p s)

/-- `MemRead(A, 1)` (R94): the byte a host read of `a` returns, or the model fault it is. An `OUT[i]` below OUT_LEN that
holds no value cannot arise in a run (`State.Inv`); it too is READ_STALE. -/
def busRead (s : State) (a : BusAddr) : Except Fault Byte :=
  if s.busy ∧ locate a ≠ .status then .error .busyAccess
  else
    match locate a with
    | .cmd => .ok s.cmdLast
    | .status => .ok (statusByte s)
    | .errcode => .ok s.errCode
    | .key => .ok s.key
    | .inLenLo => .ok (lenLo s.inLen)
    | .inLenHi => .ok (lenHi s.inLen)
    | .outLenLo => .ok (lenLo s.outLen)
    | .outLenHi => .ok (lenHi s.outLen)
    | .inBuf i =>
      match inByte s i with
      | some b => .ok b
      | none => .error .readUnwritten
    | .outBuf i =>
      if i < s.outLen.toNat then
        match outByte s i with
        | some b => .ok b
        | none => .error .readStale
      else .error .readStale
    | .reserved => .error .reservedAccess

/-- `MemWrite(A, 1, V)` (R93): the state a host write leaves, or the model fault it is. -/
def busWrite (s : State) (a : BusAddr) (v : Byte) : Except Fault State :=
  if s.busy then .error .busyAccess
  else
    match locate a with
    | .cmd => .ok (startCommand v s)
    | .inLenLo => .ok { s with inLen := withLenLo s.inLen v }
    | .inLenHi => .ok { s with inLen := withLenHi s.inLen v }
    | .inBuf i => .ok { s with mem := s.mem.write (Config.inBase + i) v }
    | .status | .errcode | .key | .outLenLo | .outLenHi | .outBuf _ => .error .writeReadOnly
    | .reserved => .error .reservedAccess

/-- The byte `v` a read returned goes into a host variable (R94); the block's state is untouched (R45). -/
def returnByte (v : Byte) (s : State) : State :=
  { s with hostReads := v :: s.hostReads }

/-- Reset (R126, R127): every piece of the block's state takes its reset value, a pending command is discarded, the
written marks are cleared, and the fault record is unchanged. What the host has still to do and has read is the host's. -/
def applyReset (s : State) : State :=
  { State.reset with
    faultRecord := s.faultRecord
    program := s.program
    hostReads := s.hostReads
    starts := s.starts }

/-- A model fault is recorded if the record is empty (R110, R34); it changes nothing else, so STATUS.BUSY stays
1 after a command step's fault (R61). -/
def recordFault (r : Fault) (s : State) : State :=
  match s.faultRecord with
  | none => { s with faultRecord := some r }
  | some _ => s

end Sys2Proof.Machine
end

