-- ==== Sys2Proof/Machine/Frame.lean ====
section
/-! DEFINITION. FRAME, the envelope encoder (spec 41_frame.md). -/

namespace Sys2Proof.Machine

open Host (Outcome)

/-- The outbound frame of payload `p`, `[0x86, len(p)+1] || p || [fold(p)]` (R55, R70), or ERR_ENCODING for a payload over
`MAX_PAYLOAD` bytes (R71). -/
def frameBytes (p : List Byte) : Except ErrorCode (List Byte) :=
  if Config.maxPayload < p.length then .error .encoding
  else .ok ([Config.hdrOut, BitVec.ofNat 8 (p.length + 1)] ++ p ++ [fold p])

/-- FRAME (R70): after the common checks, the frame of the input goes to OUT_BUF. -/
def execFrame (s : State) : Outcome State Fault Refusal :=
  withInput id (fun p => deliver (frameBytes p)) s

end Sys2Proof.Machine
end

