-- ==== Sys2Proof/Machine/HostAccess.lean ====
section
/-! DEFINITION. The host bus transactions HOST_WR and HOST_RD (spec 44_host_access.md). -/

namespace Sys2Proof.Machine

open Host (Outcome)

/-- HOST_WR, `wr A, V` (R93). A faulting write changes no state of the block. -/
def execHostWr (a : BusAddr) (v : Byte) (s : State) : Outcome State Fault Refusal :=
  match busWrite s a v with
  | .ok t => .next t
  | .error r => .fault r

/-- HOST_RD, `rd A -> t` (R94). A read changes no state of the block. -/
def execHostRd (a : BusAddr) (s : State) : Outcome State Fault Refusal :=
  match busRead s a with
  | .ok v => .next (returnByte v s)
  | .error r => .fault r

end Sys2Proof.Machine
end

