-- ==== Sys2Proof/Machine/SessionKey.lean ====
section
/-! DEFINITION. LOADKEY and KEYXOR, the session-key XOR unit (spec 43_session_key.md). -/

namespace Sys2Proof.Machine

open Host (Outcome)

/-- A LOADKEY that fails leaves KEY unchanged and clears STATUS.KEY_VALID (R86). -/
def dropKey (s : State) : State := { s with keyValid := false }

/-- LOADKEY's own rule on device info `info` (R85): the byte at `KEY_INDEX` becomes KEY and KEY_VALID is set, or, with
fewer than `KEY_MIN_INFO` bytes, ERR_INFO_SHORT (R86). -/
def loadKeyFrom (info : List Byte) (s : State) : State :=
  if info.length < Config.keyMinInfo then complete .infoShort (dropKey s)
  else
    match info[Config.keyIndex]? with
    | none => complete .infoShort (dropKey s)
    | some k => complete .ok { s with key := k, keyValid := true }

/-- LOADKEY (R85); an IN_LEN above `BUF_SIZE` also clears KEY_VALID (R62, R86). -/
def execLoadkey (s : State) : Outcome State Fault Refusal :=
  withInput dropKey loadKeyFrom s

/-- Every byte of `b` XORed with the key byte `k` (R88). -/
def xorBytes (k : Byte) (b : List Byte) : List Byte := b.map (fun x => x ^^^ k)

/-- KEYXOR's own rule on buffer `b` (R88): the XORed bytes go to OUT_BUF and the key is used up; without a valid key,
ERR_NOKEY (R89). -/
def xorWithKey (b : List Byte) (s : State) : State :=
  if s.keyValid then deliver (.ok (xorBytes s.key b)) { s with keyValid := false }
  else deliver (.error .noKey) s

/-- KEYXOR (R88); an IN_LEN above `BUF_SIZE` keeps the key valid (R62, R88). -/
def execKeyxor (s : State) : Outcome State Fault Refusal :=
  withInput id xorWithKey s

end Sys2Proof.Machine
end

