-- ==== Sys2Proof/Machine/Unframe.lean ====
section
/-! DEFINITION. UNFRAME, the reply frame validator (spec 42_unframe.md). -/

namespace Sys2Proof.Machine

open Host (Outcome)

/-- The payload of reply `r`, or why it is refused, in the order header (R76), length (R77), checksum (R78). The payload
region is `r[2 : n+1]` with `n = r[1]`, empty for `n <= 1`; the checksum is `r[n+1]`, which for `n = 0` is the length
byte itself (R80); later bytes are not read (R79). -/
def unframeBytes (r : List Byte) : Except ErrorCode (List Byte) :=
  if r[0]? ≠ some Config.hdrIn then .error .header
  else
    match r[1]? with
    | none => .error .short
    | some len =>
      let n := len.toNat
      if r.length < n + 2 then .error .short
      else if r[n + 1]? ≠ some (fold (slice r 2 (n + 1))) then .error .checksum
      else .ok (slice r 2 (n + 1))

/-- UNFRAME (R75): after the common checks, the payload of the input reply goes to OUT_BUF. -/
def execUnframe (s : State) : Outcome State Fault Refusal :=
  withInput id (fun r => deliver (unframeBytes r)) s

end Sys2Proof.Machine
end

