-- ==== Sys2Proof/Machine/Dispatch.lean ====
section
/-! DEFINITION. What one instruction does: for a command, the block's completion step of it (spec 40_command_cycle.md
R61, R62); for a transaction, the host's bus access. One arm per row of spec/opcode_table.json. -/

namespace Sys2Proof.Machine

def exec (i : Instr) (s : State) : Host.Outcome State Fault Refusal :=
  match i with
  | .frame => Sys2Proof.Machine.execFrame s
  | .unframe => Sys2Proof.Machine.execUnframe s
  | .loadkey => Sys2Proof.Machine.execLoadkey s
  | .keyxor => Sys2Proof.Machine.execKeyxor s
  | .hostWr a v => Sys2Proof.Machine.execHostWr a v s
  | .hostRd a => Sys2Proof.Machine.execHostRd a s

end Sys2Proof.Machine
end

