-- ==== Sys2Proof/Machine/Agents.lean ====
section
/-! DEFINITION. The two agents (spec 40_command_cycle.md R60): the block, whose one step completes the pending command
(R61), and the host, which performs its program's operations one at a time in program order (20_memory.md R47); and
which of them moves next (R66). -/

namespace Sys2Proof.Machine

open Host (Outcome)

/-- The block moves: its step is enabled exactly when STATUS.BUSY = 1 (R61), and it is taken when its delay has run out
or the host has nothing left to do, so a pending command is always completed in the end (weak fairness, R66). -/
def blockMoves (s : State) : Bool := s.busy && (s.delay == 0 || s.program.isEmpty)

/-- The block's step (R61): `Exec(CMD_LAST)`. A reserved command byte completes with ERR_BADCMD before any other
check (R52, R62). -/
def blockStep (s : State) : Outcome State Fault Refusal :=
  match decode (.command s.cmdLast) with
  | .ok i => exec i s
  | .error _ => .next (complete .badCmd s)

/-- The state in which a host operation acts: the operation is off the program, and while a command is pending one
host step of its delay is used. -/
def hostTurn (rest : List HostOp) (s : State) : State :=
  { s with program := rest, delay := if s.busy then s.delay - 1 else s.delay }

/-- The bus address of STATUS (R22). -/
def statusAddr : BusAddr := 0x001

/-- `wait` goes on while bit 0 of the byte just read is 1 (R56): the operation then stays at the head of the program. -/
def pollAgain (t : State) : State :=
  match t.hostReads with
  | v :: _ => if v.getLsbD 0 then { t with program := .wait :: t.program } else t
  | [] => t

/-- The host performs operation `op` in state `s`, from which the operation has been taken off (R47, R56). -/
def hostOp (op : HostOp) (s : State) : Outcome State Fault Refusal :=
  match op with
  | .txn w =>
    match decode (.transaction w) with
    | .ok i => exec i s
    | .error _ => .refused .readWordWithData
  | .wrLast a =>
    match s.hostReads with
    | t :: _ => exec (.hostWr a t) s
    | [] => .refused .unassignedHostVariable
  | .wait => andThen (exec (.hostRd statusAddr) s) (fun t => .next (pollAgain t))
  | .reset => .next (applyReset s)

/-- The host's step: its next operation; with nothing to do, nothing changes. -/
def hostStep (s : State) : Outcome State Fault Refusal :=
  match s.program with
  | [] => .next s
  | op :: rest => hostOp op (hostTurn rest s)

/-- The state that runs the encoded instruction `e` next. A command runs as a host starts it, by the command start of
R60 with its byte, the block moving next; a transaction word goes to the head of the host's program, the host moving
next. Both leave a run that has not gone wrong. -/
def place (e : Encoded) (s : State) : State :=
  match e with
  | .command b => { startCommand b s with delay := 0, faultRecord := none }
  | .transaction w =>
    { s with
      program := .txn w :: s.program
      delay := if s.busy then s.delay + 1 else s.delay
      faultRecord := none }

end Sys2Proof.Machine
end

