-- ==== Sys2Proof/Machine/Step.lean ====
section
/-! DEFINITION. One step of the machine, and the placing of an instruction where the next step runs it. -/

namespace Sys2Proof.Machine

open Host (Outcome)

/-- One step. A run that has recorded a model fault is over: it takes no further step (spec 60_exceptions.md R110,
10_state.md R34). Otherwise the agent whose turn it is moves (40_command_cycle.md R60, R66). -/
def step (s : State) : Outcome State Fault Refusal :=
  match s.faultRecord with
  | some r => .fault r
  | none => if blockMoves s then blockStep s else hostStep s

/-- The state a step leaves, with a model fault recorded (R110): the run of the spec, in which a faulted state keeps its
record and goes nowhere. A refused word is no operation of the machine and leaves the state alone. -/
def stepRecording (s : State) : State :=
  match step s with
  | .next t => t
  | .fault r => recordFault r s
  | .refused _ => s

/-- `s` with the instruction of an opcode-table row's word where the very next step runs it; a word that is no row's
leaves `s` alone. -/
def State.withFetchWord (s : State) (nbits w : Nat) : State :=
  match encodedOfTableWord nbits w with
  | some e => place e s
  | none => s

end Sys2Proof.Machine
end

