-- ==== Sys2Proof/Machine/HostReference.lean ====
section
/-! DEFINITION. What the host computes by itself (spec 45_host_protocol.md R101 to R103, R107): checksum16, the burn
buffer, the request payloads and the classes of the block's error codes. The block computes none of these (R100). -/

namespace Sys2Proof.Machine

/-- The loop of checksum16 from sum `s` on: big-endian 16-bit words, summed modulo 0x10000; a trailing odd byte is not
summed (R101). -/
def sumWords : BitVec 16 → List Byte → BitVec 16
  | s, hi :: lo :: rest => sumWords (s + (hi ++ lo)) rest
  | s, _ => s

/-- `checksum16(data)`: the word sum ORed with the fixed mask 0x5115 (R101). -/
def checksum16 (data : List Byte) : BitVec 16 := sumWords 0x0000 data ||| 0x5115

/-- The burn buffer of seed `s`: `s || [0x06, 0x1E] || [c[15:8], c[7:0]]` with `c = checksum16(s)` (R102). -/
def burnBuffer (s : List Byte) : List Byte :=
  s ++ [0x06, 0x1E] ++ [(checksum16 s).extractLsb' 8 8, (checksum16 s).extractLsb' 0 8]

/-- The GetInfo request payload (R103). -/
def getInfoPayload : List Byte := [0x10]

/-- The BurnSeed request payload for the keyed burn buffer `x` (R103). -/
def burnSeedPayload (x : List Byte) : List Byte := 0x18 :: x

/-- The keep-alive probe (R104). -/
def keepAlive : List Byte := [0x00, 0xA4, 0x04, 0x00]

/-- How a host operation fails: the source's classes (R107) and the block codes that have none. -/
inductive HostError where
  /-- TransportError: a transport call failed (R104). -/
  | transport
  /-- EncodingError: ERR_ENCODING (R104), or a payload too long to load at all (R103, log entry 9). -/
  | encoding
  /-- ProtocolError with the block's code: ERR_HEADER, ERR_CHECKSUM, ERR_SHORT or ERR_INFO_SHORT (R107). -/
  | protocol (code : Byte)
  /-- A block code with no source class: ERR_NOKEY, ERR_BADLEN or ERR_BADCMD (R107). -/
  | block (code : Byte)
  deriving DecidableEq, Repr

/-- The class of an ERRCODE other than 0x00 (R107). -/
def errorClass (code : Byte) : HostError :=
  if code = 0x04 then .encoding
  else if code = 0x01 ∨ code = 0x02 ∨ code = 0x03 ∨ code = 0x05 then .protocol code
  else .block code

end Sys2Proof.Machine
end

