-- ==== Sys2Proof/Machine/HostSyntax.lean ====
section
/-! DEFINITION. The host's assembler syntax: the real operations and the expansions of the pseudo-operations (spec
30_encoding.md R56), and running them on the machine one after another. -/

namespace Sys2Proof.Machine

open Host (Outcome)

/-- `wr A, V` (R56). -/
def wr (a : BusAddr) (v : Byte) : HostOp := .txn (writeWord a v)

/-- `rd A -> t` (R56). -/
def rd (a : BusAddr) : HostOp := .txn (readWord a)

/-- `setlen N`: `wr 0x004, N[7:0]` and `wr 0x005, zext_8(N[9:8])`. -/
def setlen (n : Len) : List HostOp := [wr 0x004 (lenLo n), wr 0x005 (lenHi n)]

/-- The writes of `bs` from bus address `a` on. -/
def loadAt : Nat → List Byte → List HostOp
  | _, [] => []
  | a, b :: bs => wr (BitVec.ofNat 11 a) b :: loadAt (a + 1) bs

/-- `load [b0, ..., bk-1]`: the bytes go to IN_BUF from `IN[0]` on. -/
def load (bs : List Byte) : List HostOp := loadAt Config.inBase bs

/-- `run OP`: the write of the opcode to CMD, then `wait`. -/
def run (opcode : Byte) : List HostOp := [wr 0x000 opcode, .wait]

/-- `getlen -> m`: the reads of OUT_LEN_LO and OUT_LEN_HI. -/
def getlen : List HostOp := [rd 0x006, rd 0x007]

/-- The value `m = hi[1:0] : lo` of a `getlen` whose reads were the latest two. -/
def lengthRead (s : State) : Nat :=
  match s.hostReads with
  | hi :: lo :: _ => (hi.extractLsb' 0 2 ++ lo).toNat
  | _ => 0

/-- The reads of the `k` bytes from bus address `a` on. -/
def readFrom : Nat → Nat → List HostOp
  | _, 0 => []
  | a, k + 1 => rd (BitVec.ofNat 11 a) :: readFrom (a + 1) k

/-- `readout K -> r`: the reads of `OUT[0]` to `OUT[K-1]`. -/
def readout (k : Nat) : List HostOp := readFrom Config.outBase k

/-- The bytes of the latest `k` reads, in the order they were read. -/
def bytesRead (k : Nat) (s : State) : List Byte := (s.hostReads.take k).reverse

/-- The copies of the `k` bytes from `OUT[i]` on to `IN[i]` on. -/
def copyFrom : Nat → Nat → List HostOp
  | _, 0 => []
  | i, k + 1 =>
    rd (BitVec.ofNat 11 (Config.outBase + i)) :: .wrLast (BitVec.ofNat 11 (Config.inBase + i))
      :: copyFrom (i + 1) k

/-- `copyout K`: for i = 0 .. K-1, `rd 0x400+i -> t` and `wr 0x200+i, t`. -/
def copyout (k : Nat) : List HostOp := copyFrom 0 k

/-- At most `n` steps, ending as soon as the host's program is empty. -/
def drain : Nat → State → Outcome State Fault Refusal
  | 0, s => .next s
  | n + 1, s => if s.program.isEmpty then .next s else andThen (step s) (drain n)

/-- The machine performs the one host operation `op`. The steps suffice for every operation: a `wait` takes one
poll per host step of the delay, the block's step, and the poll that sees BUSY = 0. -/
def issue (op : HostOp) (s : State) : Outcome State Fault Refusal :=
  drain (s.delay + 2) { s with program := [op] }

/-- The machine performs the host operations `ops` in order. -/
def drive : List HostOp → State → Outcome State Fault Refusal
  | [], s => .next s
  | op :: ops, s => andThen (issue op s) (drive ops)

end Sys2Proof.Machine
end

