-- ==== Sys2Proof/Machine/HostProtocol.lean ====
section
/-! DEFINITION. The host reference protocol on the machine (spec 45_host_protocol.md R104 to R108): the host runs the
block's commands over the bus, calls the transport, and sequences transceive, GetInfo and BurnSeed. -/

namespace Sys2Proof.Machine

open Host (Outcome)

/-- The transport (R100, c200 §1): from all the byte strings sent so far, oldest first, the reply to the last of them,
or none for TransportError. It may depend on the whole history, so it stands for any device that is a function of it. -/
abbrev Transport := List (List Byte) → Option (List Byte)

/-- The host's side of a session: the machine, and what was sent to the transport, oldest first. -/
structure Session where
  block : State
  sent : List (List Byte)
  deriving DecidableEq, Repr

/-- What a host operation ends with: a value or an error, and the session; or a model fault that ended the run. -/
abbrev HostResult (α : Type) := Outcome (Except HostError α × Session) Fault Refusal

/-- Go on after a host operation; the first error is returned unchanged and nothing is retried (R107). -/
def thenHost {α β : Type} (o : HostResult α) (k : α → Session → HostResult β) : HostResult β :=
  andThen o (fun r =>
    match r with
    | (.ok v, h) => k v h
    | (.error e, h) => .next (.error e, h))

/-- The host reads ERRCODE, and on 0x00 the result: OUT_LEN, then `OUT[0:OUT_LEN]` (R134). -/
def fetchResult (s : State) : Outcome (Except HostError (List Byte) × State) Fault Refusal :=
  andThen (drive [rd 0x002] s) (fun t =>
    let code := t.hostReads.headD 0x00
    if code ≠ 0x00 then .next (.error (errorClass code), t)
    else
      andThen (drive getlen t) (fun u =>
        andThen (drive (readout (lengthRead u)) u) (fun w =>
          .next (.ok (bytesRead (lengthRead u) w), w))))

/-- The host runs one command on input `data`: `load`, `setlen`, `run`, then the result. An input over `BUF_SIZE` bytes
cannot be loaded; the operation ends with EncodingError (R103: "a longer seed ends with ERR_ENCODING"; log entry 9). -/
def runBlock (opcode : Byte) (data : List Byte) (s : State) :
    Outcome (Except HostError (List Byte) × State) Fault Refusal :=
  if Config.bufSize < data.length then .next (.error .encoding, s)
  else
    andThen (drive (load data ++ setlen (BitVec.ofNat 10 data.length) ++ run opcode) s) fetchResult

/-- One command of the block within a session. -/
def onBlock (opcode : Byte) (data : List Byte) (h : Session) : HostResult (List Byte) :=
  andThen (runBlock opcode data h.block) (fun r => .next (r.1, { h with block := r.2 }))

/-- One transport call: the message is sent and the reply awaited (R100, R104). -/
def send (t : Transport) (msg : List Byte) (h : Session) : HostResult (List Byte) :=
  let h' := { h with sent := h.sent ++ [msg] }
  match t h'.sent with
  | some reply => .next (.ok reply, h')
  | none => .next (.error .transport, h')

/-- `transceive(p)` (R104): the keep-alive probe, FRAME, the real transmission, UNFRAME on the reply's first
`BUF_SIZE` bytes. -/
def transceive (t : Transport) (p : List Byte) (h : Session) : HostResult (List Byte) :=
  thenHost (send t keepAlive h) (fun _ h₁ =>
    thenHost (onBlock 0x01 p h₁) (fun f h₂ =>
      thenHost (send t f h₂) (fun reply h₃ =>
        onBlock 0x02 (reply.take Config.bufSize) h₃)))

/-- `getInfo()` (R105). -/
def getInfo (t : Transport) (h : Session) : HostResult (List Byte) := transceive t getInfoPayload h

/-- `burnSeed(s)` (R106): fresh device info, LOADKEY, the burn buffer through KEYXOR, then the burn request. A burn
buffer over `BUF_SIZE` bytes cannot go through KEYXOR; whatever its bytes, its request is too long for FRAME, so the
burn transceive ends with EncodingError after its probe (R103, R104; log entry 9). -/
def burnSeed (t : Transport) (s : List Byte) (h : Session) : HostResult (List Byte) :=
  thenHost (getInfo t h) (fun info h₁ =>
    thenHost (onBlock 0x03 info h₁) (fun _ h₂ =>
      if Config.bufSize < (burnBuffer s).length then transceive t (burnSeedPayload (burnBuffer s)) h₂
      else
        thenHost (onBlock 0x04 (burnBuffer s) h₂) (fun x h₃ =>
          transceive t (burnSeedPayload x) h₃)))

end Sys2Proof.Machine
end

