-- ==== Sys2Proof/Safety.lean ====
section
/-! DEFINITION. The invariant of every run, and the words in which claims about the machine are stated: what a
command's input and result are, how a command ends, and what stays unchanged. -/

namespace Sys2Proof.Machine

open Host (Outcome)

/-- The invariant that reset establishes and every step keeps: the memory is canonical and lies in the two buffers;
STATUS.ERR = 1 exactly when ERRCODE is not 0x00 (spec 10_state.md R26) and ERRCODE is one of the nine codes (R27); OUT_LEN is
at most 512 (R29) and every byte below it holds a value (R31); a pending command has no result and no code yet (R60),
and only a pending command is delayed; a command that failed left no result (40_command_cycle.md R64). -/
structure State.Inv (s : State) : Prop where
  memCanonical : s.mem.wf
  memInBuffers : ∀ c ∈ s.mem, Config.inBase ≤ c.1 ∧ c.1 < Config.outBase + Config.bufSize
  errIffCode : s.err = true ↔ s.errCode ≠ 0x00
  codeIsOneOfNine : s.errCode ≤ 0x08
  errImpliesDone : s.err = true → s.done = true
  outLenBound : s.outLen.toNat ≤ Config.bufSize
  resultHeld : ∀ i, i < s.outLen.toNat → (outByte s i).isSome = true
  pendingIsClean : s.busy = true → s.done = false ∧ s.outLen = 0
  onlyPendingIsDelayed : s.busy = false → s.delay = 0
  failedLeavesNothing : s.err = true → s.outLen = 0

/-- `n` steps from `s`, stopping at the first model fault or refusal: `Host.Core.run` of this machine
(`Laws.core_run_eq`). -/
def runSteps : Nat → State → Outcome State Fault Refusal
  | 0, s => .next s
  | n + 1, s => andThen (step s) (runSteps n)

/-- A run is safe as far as it goes: `n` steps from `s` meet no model fault and no refusal. -/
def SafeFor (n : Nat) (s : State) : Prop := ∃ t, runSteps n s = .next t

/-- The command's input `IN[0:IN_LEN]` is the byte sequence `p`, each byte written (R30, R32). -/
def InputIs (s : State) (p : List Byte) : Prop :=
  s.inLen.toNat = p.length ∧ ∀ i, i < p.length → inByte s i = p[i]?

/-- The result `OUT[0:OUT_LEN]` is the byte sequence `r` (R31). -/
def OutputIs (t : State) (r : List Byte) : Prop :=
  t.outLen.toNat = r.length ∧ ∀ i, i < r.length → outByte t i = r[i]?

/-- The command has completed with ERRCODE `code` (R61): ERR is set exactly for a code other than 0x00. -/
def CompletedWith (t : State) (code : Byte) : Prop :=
  t.errCode = code ∧ (t.err = true ↔ code ≠ 0x00) ∧ t.done = true ∧ t.busy = false ∧ t.delay = 0

/-- What no command changes: CMD_LAST and IN_LEN (R65), the fault record, and the host's side. -/
def CommandFrame (s t : State) : Prop :=
  t.cmdLast = s.cmdLast ∧ t.inLen = s.inLen ∧ t.faultRecord = s.faultRecord ∧ t.program = s.program ∧
    t.hostReads = s.hostReads ∧ t.starts = s.starts

/-- Every byte of memory reads as before. -/
def MemoryUnchanged (s t : State) : Prop := ∀ a, t.mem.read a = s.mem.read a

/-- Every byte of memory outside the `n` bytes from address `lo` on reads as before. -/
def MemoryUnchangedOutside (s t : State) (lo n : Nat) : Prop :=
  ∀ a, a < lo ∨ lo + n ≤ a → t.mem.read a = s.mem.read a

/-- The instruction is one of the block's four commands (R51). -/
def IsCommand (i : Instr) : Prop := i = .frame ∨ i = .unframe ∨ i = .loadkey ∨ i = .keyxor

/-- Nothing but the fault record differs (R110). -/
def SameButFaultRecord (s t : State) : Prop := { t with faultRecord := s.faultRecord } = s

/-- Nothing but the host's side (its program, what it read) and the schedule differs: the block's registers, buffers
and bookkeeping are equal. -/
def SameBlock (s t : State) : Prop :=
  t.cmdLast = s.cmdLast ∧ t.busy = s.busy ∧ t.done = s.done ∧ t.err = s.err ∧ t.keyValid = s.keyValid ∧
    t.errCode = s.errCode ∧ t.key = s.key ∧ t.inLen = s.inLen ∧ t.outLen = s.outLen ∧ t.mem = s.mem ∧
    t.faultRecord = s.faultRecord

/-- The outbound frame of a payload as the host sends it, `[0x86, len(p)+1] || p || [fold(p)]` (30_encoding.md R55). -/
def frameOf (p : List Byte) : List Byte := [0x86, BitVec.ofNat 8 (p.length + 1)] ++ p ++ [fold p]

/-- Reply `r` is accepted with payload `q` (42_unframe.md R75, R80): a reply frame of `q`, or the length byte 0, and any
bytes after it (R79). -/
def ReplyCarries (r q : List Byte) : Prop :=
  (q.length ≤ 254 ∧ ∃ tail, r = [0xAA, BitVec.ofNat 8 (q.length + 1)] ++ q ++ [fold q] ++ tail) ∨
  (q = [] ∧ ∃ tail, r = 0xAA :: 0x00 :: tail)

/-- Reply `r` is malformed with code `code`, in the order of 42_unframe.md: header (R76), length (R77), checksum (R78). -/
def ReplyRefusedWith (r : List Byte) (code : Byte) : Prop :=
  (code = 0x01 ∧ r[0]? ≠ some 0xAA) ∨
  (code = 0x03 ∧ r[0]? = some 0xAA ∧
    (r.length < 2 ∨ ∃ n : Byte, r[1]? = some n ∧ r.length < n.toNat + 2)) ∨
  (code = 0x02 ∧ r[0]? = some 0xAA ∧ ∃ n : Byte, r[1]? = some n ∧ n.toNat + 2 ≤ r.length ∧
    r[n.toNat + 1]? ≠ some (fold ((r.take (n.toNat + 1)).drop 2)))

/-- A session whose run has not gone wrong and in which no command is pending. -/
def SessionIdle (h : Session) : Prop := h.block.faultRecord = none ∧ h.block.busy = false

/-- A host operation that ends with `result`, having sent `sent` in all and left the block idle, in session `h'`. -/
def EndsWith (o : HostResult (List Byte)) (result : Except HostError (List Byte)) (sent : List (List Byte))
    (h' : Session) : Prop :=
  o = .next (result, h') ∧ h'.sent = sent ∧ SessionIdle h'

end Sys2Proof.Machine
end

