-- ==== Sys2Proof/Certificates/Slice0/Obligations.lean ====
section
/-! DEFINITION. The statements about the machine, one definition each, in the order of the spec's files; those added after a review stand at the end. A command's
statements are about `exec` of it, which is the block's completion step (40_command_cycle.md R61); the statements about
`step` say when a run performs it. No statement rests on the value of a model's own field (program, hostReads,
delay, starts) at reset or on any value of `Config.latency`. -/

open Sys2Proof Sys2Proof.Machine

/-! ## Encodings -/

/-- Decode and encode agree, both ways, for every instruction with every operand value (30_encoding.md R51, R54). -/
def Obligations.DecodeInvertsEncode : Prop :=
  (∀ i, decode (encode i) = .ok i) ∧ ∀ e i, decode e = .ok i → encode i = e

/-- R54, the transaction word: bit 19 is `W`, bits 18:8 are `A`, bits 7:0 are `D`; a read word with data is refused by
name; and the rule's four example words. -/
def Obligations.TransactionWordLayout : Prop :=
  (∀ w : TransWord,
    (w.toNat / 2 ^ 19 = 1 →
      decode (.transaction w) =
        .ok (.hostWr (BitVec.ofNat 11 (w.toNat / 2 ^ 8)) (BitVec.ofNat 8 w.toNat))) ∧
    (w.toNat / 2 ^ 19 = 0 → w.toNat % 2 ^ 8 = 0 →
      decode (.transaction w) = .ok (.hostRd (BitVec.ofNat 11 (w.toNat / 2 ^ 8)))) ∧
    (w.toNat / 2 ^ 19 = 0 → w.toNat % 2 ^ 8 ≠ 0 →
      decode (.transaction w) = .error .readWordWithData)) ∧
  decode (.transaction 0xA0010) = .ok (.hostWr 0x200 0x10) ∧
  decode (.transaction 0x80001) = .ok (.hostWr 0x000 0x01) ∧
  decode (.transaction 0x00100) = .ok (.hostRd 0x001) ∧
  decode (.transaction 0x40000) = .ok (.hostRd 0x400)

/-- The four command bytes, each compared whole, and every other byte reserved (30_encoding.md section 2). -/
def Obligations.CommandByteIsTheWholeOpcode : Prop :=
  ∀ b : Byte,
    (decode (.command b) = .ok .frame ↔ b = 0x01) ∧ (decode (.command b) = .ok .unframe ↔ b = 0x02) ∧
    (decode (.command b) = .ok .loadkey ↔ b = 0x03) ∧ (decode (.command b) = .ok .keyxor ↔ b = 0x04) ∧
    (decode (.command b) = .error .reservedCommand ↔ b = 0x00 ∨ 0x05 ≤ b)

/-- Words written out from the spec decode to the operations they stand for: five words of programs P1 to P5
(95_test_vectors.md), and, numbered as the opcode table numbers its rows (8 and 24 bits, the model's choice, log entry
8), the four command bytes, the word of `wr 0x002, 0x04` and a read word with data, which is none. -/
def Obligations.SpecProgramWordsDecode : Prop :=
  decode (.transaction 0xA062A) = .ok (.hostWr 0x206 0x2A) ∧
  decode (.transaction 0x80408) = .ok (.hostWr 0x004 0x08) ∧
  decode (.transaction 0x80004) = .ok (.hostWr 0x000 0x04) ∧
  decode (.transaction 0x00700) = .ok (.hostRd 0x007) ∧
  decode (.transaction 0x40900) = .ok (.hostRd 0x409) ∧
  decodeTableWord 8 0x01 = some .frame ∧ decodeTableWord 8 0x02 = some .unframe ∧
  decodeTableWord 8 0x03 = some .loadkey ∧ decodeTableWord 8 0x04 = some .keyxor ∧
  decodeTableWord 24 0x80204 = some (.hostWr 0x002 0x04) ∧ decodeTableWord 24 0x00001 = none

/-- R9, the XOR fold: empty gives 0x00, appending a byte XORs it in, and the order of the bytes does not matter. -/
def Obligations.FoldIsXorInAnyOrder : Prop :=
  fold [] = 0x00 ∧ (∀ s b, fold (s ++ [b]) = fold s ^^^ b) ∧ ∀ s t : List Byte, s.Perm t → fold s = fold t

/-! ## A step runs the decoded instruction -/

/-- The host's turn: the transaction word at the head of its program decodes to `i`, and the step is `exec i` in the
state with the word taken off and, while a command is pending, one host step of its delay used (the schedule is the
model's, log entry 1). That the decoder's refusal (R54) is the step's is the model's choice (log entry 7). -/
def Obligations.StepRunsHostTransaction : Prop :=
  ∀ (s : State) (w : TransWord) (rest : List HostOp),
    s.faultRecord = none → (s.busy = false ∨ 0 < s.delay) → s.program = .txn w :: rest →
    (∀ i, decode (.transaction w) = .ok i →
      step s = exec i { s with program := rest, delay := if s.busy then s.delay - 1 else s.delay }) ∧
    (decode (.transaction w) = .error .readWordWithData → step s = .refused .readWordWithData)

/-- The block's turn: a command is pending whose byte decodes to `i`, and its delay has run out or the host has nothing
left to do (the schedule is the model's, log entry 1); the step is `exec i`. -/
def Obligations.StepRunsPendingCommand : Prop :=
  ∀ (s : State) (i : Instr),
    s.faultRecord = none → s.busy = true → (s.delay = 0 ∨ s.program = []) →
    decode (.command s.cmdLast) = .ok i → step s = exec i s

/-- An instruction placed by `withFetchWord` is what the very next step runs: a command in the state it leaves, a
transaction in the state it was given, with a run that has not gone wrong. How an instruction is placed is the model's
choice (log entries 3 and 8). -/
def Obligations.StepRunsPlacedInstruction : Prop :=
  ∀ (s : State) (nbits w : Nat) (i : Instr), decodeTableWord nbits w = some i →
    (nbits ≤ 8 → step (s.withFetchWord nbits w) = exec i (s.withFetchWord nbits w)) ∧
    (8 < nbits → step (s.withFetchWord nbits w) = exec i { s with faultRecord := none })

/-- The other host operations: `wr A, t` writes the byte of the latest read, `wait` reads STATUS and stays while
BUSY is 1, an idle machine stays as it is (log entry 3), and a variable no read has assigned is refused (log entry 7).
That a host step uses one of the delay while a command is pending is the model's choice (log entry 1). -/
def Obligations.StepRunsOtherHostOperations : Prop :=
  ∀ (s : State) (rest : List HostOp), s.faultRecord = none → (s.busy = false ∨ 0 < s.delay) →
    (∀ a v vs, s.program = .wrLast a :: rest → s.hostReads = v :: vs →
      step s = exec (.hostWr a v) { s with program := rest, delay := if s.busy then s.delay - 1 else s.delay }) ∧
    (∀ a, s.program = .wrLast a :: rest → s.hostReads = [] → step s = .refused .unassignedHostVariable) ∧
    (s.program = .wait :: rest → s.busy = true →
      step s = .next { s with delay := s.delay - 1, hostReads := statusByte s :: s.hostReads }) ∧
    (s.program = .wait :: rest → s.busy = false →
      step s = .next { s with program := rest, hostReads := statusByte s :: s.hostReads }) ∧
    (s.program = [] → s.busy = false → step s = .next s)

/-! ## The command cycle -/

/-- R60, command start: what the write of any byte `v` to CMD sets while STATUS.BUSY = 0, and that nothing else of the
block changes; while BUSY = 1 it is the model fault BUSY_ACCESS. The latency of the command stays free. -/
def Obligations.CommandStartSetsItsState : Prop :=
  ∀ (s : State) (v : Byte),
    (s.busy = false → ∃ t, exec (.hostWr 0x000 v) s = .next t ∧
      t.cmdLast = v ∧ t.done = false ∧ t.err = false ∧ t.errCode = 0x00 ∧ t.outLen = 0 ∧ t.busy = true ∧
      t.mem = s.mem ∧ t.inLen = s.inLen ∧ t.key = s.key ∧ t.keyValid = s.keyValid ∧
      t.faultRecord = s.faultRecord ∧ t.program = s.program ∧ t.hostReads = s.hostReads) ∧
    (s.busy = true → exec (.hostWr 0x000 v) s = .fault .busyAccess)

/-- R52, reserved command bytes: the cycle of 0x00 and of 0x05 to 0xFF starts like any other and completes with
ERR_BADCMD; nothing changes besides what R60 and R61 name, whatever IN_LEN and the input are. -/
def Obligations.ReservedByteCompletesWithBadCmd : Prop :=
  ∀ (s : State) (v : Byte), (v = 0x00 ∨ 0x05 ≤ v) → s.busy = false → s.faultRecord = none →
    ∃ t u, exec (.hostWr 0x000 v) s = .next t ∧ step { t with delay := 0 } = .next u ∧ CompletedWith u 0x08 ∧
      u.cmdLast = v ∧ u.outLen = 0 ∧ u.mem = s.mem ∧ u.inLen = s.inLen ∧ u.key = s.key ∧
      u.keyValid = s.keyValid ∧ u.faultRecord = s.faultRecord ∧ u.program = s.program ∧ u.hostReads = s.hostReads

/-- IN_LEN above 512: every command completes with ERR_BADLEN, whatever the input bytes are, and changes nothing but
that LOADKEY also clears KEY_VALID (40_command_cycle.md section 2). -/
def Obligations.OverlongInputCompletesWithBadLen : Prop :=
  ∀ (c : Instr) (s : State), IsCommand c → 512 < s.inLen.toNat →
    ∃ t, exec c s = .next t ∧ CompletedWith t 0x07 ∧ CommandFrame s t ∧ MemoryUnchanged s t ∧
      t.outLen = s.outLen ∧ t.key = s.key ∧ t.keyValid = (if c = .loadkey then false else s.keyValid)

/-- R63, unwritten input: any unwritten byte below IN_LEN makes the command the model fault UNINIT_INPUT, even a byte
the command's own rule does not look at. -/
def Obligations.UnwrittenInputFaults : Prop :=
  ∀ (c : Instr) (s : State) (i : Nat), IsCommand c → s.inLen.toNat ≤ 512 → i < s.inLen.toNat →
    written s i = false → exec c s = .fault .uninitInput

/-- The order of the checks as the block's step makes them: a reserved byte before everything, then IN_LEN, then
unwritten input, then the command's own outcome, which is one of the codes its rule names; the command is then no
longer pending. -/
def Obligations.PendingCommandIsCheckedInOrder : Prop :=
  ∀ s : State, s.faultRecord = none → s.busy = true → s.delay = 0 →
    ((s.cmdLast = 0x00 ∨ 0x05 ≤ s.cmdLast) → ∃ t, step s = .next t ∧ CompletedWith t 0x08) ∧
    (0x01 ≤ s.cmdLast → s.cmdLast ≤ 0x04 →
      (512 < s.inLen.toNat → ∃ t, step s = .next t ∧ CompletedWith t 0x07) ∧
      (s.inLen.toNat ≤ 512 → (∃ i, i < s.inLen.toNat ∧ written s i = false) → step s = .fault .uninitInput) ∧
      (s.inLen.toNat ≤ 512 → (∀ i, i < s.inLen.toNat → written s i = true) →
        ∃ t, step s = .next t ∧ t.busy = false ∧ t.done = true ∧
          (s.cmdLast = 0x01 → t.errCode = 0x00 ∨ t.errCode = 0x04) ∧
          (s.cmdLast = 0x02 → t.errCode = 0x00 ∨ t.errCode = 0x01 ∨ t.errCode = 0x02 ∨ t.errCode = 0x03) ∧
          (s.cmdLast = 0x03 → t.errCode = 0x00 ∨ t.errCode = 0x05) ∧
          (s.cmdLast = 0x04 → t.errCode = 0x00 ∨ t.errCode = 0x06)))

/-- R64, outputs of a failed command: OUT_LEN and OUT_BUF (all of memory) as the start left them, KEY unchanged, and
KEY_VALID unchanged except where LOADKEY clears it. -/
def Obligations.FailedCommandWritesNoResult : Prop :=
  ∀ (c : Instr) (s t : State), IsCommand c → exec c s = .next t → t.errCode ≠ 0x00 →
    t.outLen = s.outLen ∧ MemoryUnchanged s t ∧ t.key = s.key ∧
      (c ≠ .loadkey → t.keyValid = s.keyValid) ∧ (c = .loadkey → t.keyValid = false)

/-- R65: a command never changes IN_BUF, IN_LEN or CMD_LAST, and its result depends only on IN_LEN, IN_BUF, KEY and
KEY_VALID, never on OUT_BUF or anything else: started again on the same inputs it gives the same result. -/
def Obligations.CommandIsAFunctionOfItsInputs : Prop :=
  ∀ (c : Instr) (s : State), IsCommand c →
    (∀ t, exec c s = .next t →
      t.cmdLast = s.cmdLast ∧ t.inLen = s.inLen ∧ ∀ i, i < 512 → inByte t i = inByte s i) ∧
    (∀ s', s'.inLen = s.inLen → (∀ i, i < 512 → inByte s' i = inByte s i) → s'.key = s.key →
      s'.keyValid = s.keyValid →
      (∀ r, exec c s = .fault r → exec c s' = .fault r) ∧
      (∀ t, exec c s = .next t → ∃ t', exec c s' = .next t' ∧ t'.errCode = t.errCode ∧ t'.key = t.key ∧
        t'.keyValid = t.keyValid ∧
        (c ≠ .loadkey → t.errCode = 0x00 → ∀ x, OutputIs t x ↔ OutputIs t' x)))

/-- Every pending command is completed in the end (40_command_cycle.md section 3): a host that waits polls as many
times as the command is delayed, whatever its latency, and the next step is the block's. Counting the delay in host
steps is the model's choice (log entry 1). -/
def Obligations.WaitReachesTheBlocksStep : Prop :=
  ∀ (s : State) (rest : List HostOp), s.faultRecord = none → s.busy = true → s.program = .wait :: rest →
    runSteps (s.delay + 1) s =
      blockStep { s with delay := 0, hostReads := List.replicate s.delay (statusByte s) ++ s.hostReads }

/-- No result depends on when the completion step falls (40_command_cycle.md section 3), only the number of polls does:
for any two delays of a pending command (log entry 1) the waiting host ends in the same block state, with the same last
STATUS byte, or both runs meet the same model fault. -/
def Obligations.LatencyChangesNoResult : Prop :=
  ∀ (s : State) (rest : List HostOp) (d e : Nat),
    s.faultRecord = none → s.busy = true → s.program = .wait :: rest →
    (∀ r, runSteps (d + 2) { s with delay := d } = .fault r →
      runSteps (e + 2) { s with delay := e } = .fault r) ∧
    (∀ t, runSteps (d + 2) { s with delay := d } = .next t →
      ∃ u, runSteps (e + 2) { s with delay := e } = .next u ∧ SameBlock t u ∧ t.busy = false ∧
        u.program = t.program ∧ u.hostReads.head? = t.hostReads.head?)

/-! ## FRAME -/

/-- FRAME on a payload of at most 254 bytes completes with OK, its result `[0x86, len(p)+1] || p || [fold(p)]`, and
nothing else changed (41_frame.md). -/
def Obligations.FrameWrapsThePayload : Prop :=
  ∀ (s : State) (p : List Byte), InputIs s p → p.length ≤ 254 →
    ∃ t, exec .frame s = .next t ∧ CompletedWith t 0x00 ∧
      OutputIs t ([0x86, BitVec.ofNat 8 (p.length + 1)] ++ p ++ [fold p]) ∧
      CommandFrame s t ∧ t.key = s.key ∧ t.keyValid = s.keyValid ∧
      MemoryUnchangedOutside s t 0x400 (p.length + 3)

/-- R71, FRAME's length limit: a payload of 255 to 512 bytes completes with ERR_ENCODING, no byte of OUT_BUF written,
OUT_LEN left 0, and so no frame with a wrapped length byte. -/
def Obligations.FrameRefusesALongPayload : Prop :=
  ∀ (s : State) (p : List Byte), InputIs s p → 254 < p.length → p.length ≤ 512 → s.outLen = 0 →
    ∃ t, exec .frame s = .next t ∧ CompletedWith t 0x04 ∧ MemoryUnchanged s t ∧ t.outLen = 0 ∧
      CommandFrame s t ∧ t.key = s.key ∧ t.keyValid = s.keyValid

/-- R72, FRAME's invariants, for every successful FRAME with payload `p`; the bytes from index 2 to the end XOR to 0. -/
def Obligations.FrameInvariants : Prop :=
  ∀ (s t : State) (p : List Byte), InputIs s p → exec .frame s = .next t → t.errCode = 0x00 →
    outByte t 1 = some (BitVec.ofNat 8 (p.length + 1)) ∧ p.length + 1 < 256 ∧
    outByte t (p.length + 2) = some (fold p) ∧ (∀ i, i < p.length → outByte t (2 + i) = p[i]?) ∧
    t.outLen.toNat = p.length + 3 ∧ ∃ f, OutputIs t f ∧ fold (f.drop 2) = 0x00

/-- R73, the framing round trip: FRAME on `p`, the header byte replaced by 0xAA, and UNFRAME gives `p`. -/
def Obligations.UnframeInvertsFrame : Prop :=
  ∀ (s t u : State) (p f : List Byte), InputIs s p → p.length ≤ 254 → exec .frame s = .next t →
    OutputIs t f → InputIs u (f.set 0 0xAA) →
    ∃ v, exec .unframe u = .next v ∧ v.errCode = 0x00 ∧ OutputIs v p ∧ v.outLen.toNat = p.length

/-! ## UNFRAME -/

/-- UNFRAME on a well-formed reply frame, with any bytes after it, completes with OK, its payload the result, and
nothing else changed (42_unframe.md). -/
def Obligations.UnframeStripsTheEnvelope : Prop :=
  ∀ (s : State) (q tail : List Byte),
    InputIs s ([0xAA, BitVec.ofNat 8 (q.length + 1)] ++ q ++ [fold q] ++ tail) →
    q.length ≤ 254 → q.length + tail.length + 3 ≤ 512 →
    ∃ t, exec .unframe s = .next t ∧ CompletedWith t 0x00 ∧ OutputIs t q ∧ CommandFrame s t ∧ t.key = s.key ∧
      t.keyValid = s.keyValid ∧ MemoryUnchangedOutside s t 0x400 q.length

/-- R76, the header check: an empty reply or one whose first byte is not 0xAA is ERR_HEADER, whatever else is wrong
with it. -/
def Obligations.UnframeChecksTheHeaderFirst : Prop :=
  ∀ (s : State) (r : List Byte), InputIs s r → r.length ≤ 512 → r[0]? ≠ some 0xAA →
    ∃ t, exec .unframe s = .next t ∧ CompletedWith t 0x01 ∧ MemoryUnchanged s t ∧ t.outLen = s.outLen ∧
      CommandFrame s t ∧ t.key = s.key ∧ t.keyValid = s.keyValid

/-- R77, the too-short reply: after a good header, no length byte, or fewer than `n + 2` bytes, is ERR_SHORT, whatever
the checksum would be; and UNFRAME's outcome is the same in any two states with the same `IN[0:IN_LEN]`, so no byte
at or past IN_LEN is read. -/
def Obligations.UnframeRefusesAShortReply : Prop :=
  (∀ (s : State) (r : List Byte), InputIs s r → r.length ≤ 512 → r[0]? = some 0xAA →
    (r.length < 2 ∨ ∃ n : Byte, r[1]? = some n ∧ r.length < n.toNat + 2) →
    ∃ t, exec .unframe s = .next t ∧ CompletedWith t 0x03 ∧ MemoryUnchanged s t ∧ t.outLen = s.outLen ∧
      CommandFrame s t ∧ t.key = s.key ∧ t.keyValid = s.keyValid) ∧
  (∀ (s s' : State) (r : List Byte), InputIs s r → InputIs s' r → r.length ≤ 512 →
    ∃ t t', exec .unframe s = .next t ∧ exec .unframe s' = .next t' ∧ t'.errCode = t.errCode ∧
      (t.errCode = 0x00 → ∀ x, OutputIs t x ↔ OutputIs t' x))

/-- R78, the checksum check: a long enough reply with a good header whose byte at index `n + 1` is not the XOR fold of
the payload region is ERR_CHECKSUM. -/
def Obligations.UnframeChecksTheChecksum : Prop :=
  ∀ (s : State) (r : List Byte) (n : Byte), InputIs s r → r.length ≤ 512 → r[0]? = some 0xAA → r[1]? = some n →
    n.toNat + 2 ≤ r.length → r[n.toNat + 1]? ≠ some (fold ((r.take (n.toNat + 1)).drop 2)) →
    ∃ t, exec .unframe s = .next t ∧ CompletedWith t 0x02 ∧ MemoryUnchanged s t ∧ t.outLen = s.outLen ∧
      CommandFrame s t ∧ t.key = s.key ∧ t.keyValid = s.keyValid

/-- R79, trailing bytes: a reply with more than `n + 2` bytes has the same outcome and the same payload as its first
`n + 2` bytes alone; but an unwritten trailing byte is still the model fault UNINIT_INPUT. -/
def Obligations.UnframeIgnoresTrailingBytes : Prop :=
  (∀ (s s' : State) (r : List Byte) (n : Byte), InputIs s r → r.length ≤ 512 → r[1]? = some n →
    n.toNat + 2 < r.length → InputIs s' (r.take (n.toNat + 2)) →
    ∃ t t', exec .unframe s = .next t ∧ exec .unframe s' = .next t' ∧ t'.errCode = t.errCode ∧
      (t.errCode = 0x00 → ∀ x, OutputIs t x ↔ OutputIs t' x)) ∧
  (∀ (s : State) (n : Byte) (i : Nat), inByte s 1 = some n → n.toNat + 2 ≤ i → i < s.inLen.toNat →
    s.inLen.toNat ≤ 512 → written s i = false → exec .unframe s = .fault .uninitInput)

/-- R80, length byte 0: the check passes on the length byte itself and the payload is empty, provided IN_LEN >= 2; no
accepted reply is shorter, and the accepted one of two bytes is `[0xAA, 0x00]`. -/
def Obligations.UnframeAcceptsLengthZero : Prop :=
  (∀ (s : State) (r : List Byte), InputIs s r → r.length ≤ 512 → r[0]? = some 0xAA → r[1]? = some 0x00 →
    ∃ t, exec .unframe s = .next t ∧ CompletedWith t 0x00 ∧ OutputIs t [] ∧ MemoryUnchanged s t) ∧
  (∀ (s t : State) (r : List Byte), InputIs s r → exec .unframe s = .next t → t.errCode = 0x00 →
    2 ≤ r.length ∧ (r.length = 2 → r = [0xAA, 0x00]))

/-- R81, length byte 1: the payload is empty and the checksum `IN[2]` must be 0x00, or else ERR_CHECKSUM; so
`[0xAA, 0x00]` and `[0xAA, 0x01, 0x00]` both give an empty payload. -/
def Obligations.UnframeWithLengthOne : Prop :=
  (∀ (s : State) (b : Byte) (tail : List Byte), InputIs s (0xAA :: 0x01 :: b :: tail) → tail.length ≤ 509 →
    ∃ t, exec .unframe s = .next t ∧
      (b = 0x00 → CompletedWith t 0x00 ∧ OutputIs t []) ∧ (b ≠ 0x00 → CompletedWith t 0x02)) ∧
  (∀ s : State, InputIs s [0xAA, 0x00] ∨ InputIs s [0xAA, 0x01, 0x00] →
    ∃ t, exec .unframe s = .next t ∧ CompletedWith t 0x00 ∧ OutputIs t [])

/-! ## LOADKEY and KEYXOR -/

/-- LOADKEY on device info of at least 5 bytes completes with OK: KEY is the byte at index 4, KEY_VALID is 1, and
nothing else changed; a valid key is replaced (43_session_key.md section on LOADKEY). -/
def Obligations.LoadKeyTakesTheFifthByte : Prop :=
  ∀ (s : State) (info : List Byte) (k : Byte), InputIs s info → 5 ≤ info.length → info.length ≤ 512 →
    info[4]? = some k →
    ∃ t, exec .loadkey s = .next t ∧ CompletedWith t 0x00 ∧ t.key = k ∧ t.keyValid = true ∧
      t.outLen = s.outLen ∧ MemoryUnchanged s t ∧ CommandFrame s t

/-- R86, LOADKEY failure: info shorter than 5 bytes is ERR_INFO_SHORT, and with ERR_INFO_SHORT or ERR_BADLEN KEY is
unchanged and KEY_VALID cleared. -/
def Obligations.LoadKeyFailureDropsTheKey : Prop :=
  (∀ (s : State) (info : List Byte), InputIs s info → info.length < 5 →
    ∃ t, exec .loadkey s = .next t ∧ CompletedWith t 0x05 ∧ t.key = s.key ∧ t.keyValid = false ∧
      t.outLen = s.outLen ∧ MemoryUnchanged s t ∧ CommandFrame s t) ∧
  (∀ s : State, 512 < s.inLen.toNat →
    ∃ t, exec .loadkey s = .next t ∧ CompletedWith t 0x07 ∧ t.key = s.key ∧ t.keyValid = false)

/-- KEYXOR with a valid key on any buffer of at most 512 bytes completes with OK: the result is every byte XORed with
KEY, the key is used up but KEY keeps its value, and nothing else changed (43_session_key.md section on KEYXOR). -/
def Obligations.KeyXorMasksTheBuffer : Prop :=
  ∀ (s : State) (b : List Byte), InputIs s b → b.length ≤ 512 → s.keyValid = true →
    ∃ t, exec .keyxor s = .next t ∧ CompletedWith t 0x00 ∧ OutputIs t (b.map (fun x => x ^^^ s.key)) ∧
      t.keyValid = false ∧ t.key = s.key ∧ CommandFrame s t ∧ MemoryUnchangedOutside s t 0x400 b.length

/-- R89, KEYXOR without a key is ERR_NOKEY and writes no byte; and in every step of every run the key becomes valid only
by the completion of a successful LOADKEY, and stops being valid by the completion of a successful KEYXOR or of a failed
LOADKEY or by reset, and only so. -/
def Obligations.KeyIsValidForOneKeyXor : Prop :=
  (∀ (s : State) (b : List Byte), InputIs s b → b.length ≤ 512 → s.keyValid = false →
    ∃ t, exec .keyxor s = .next t ∧ CompletedWith t 0x06 ∧ MemoryUnchanged s t ∧ t.outLen = s.outLen ∧
      t.key = s.key ∧ t.keyValid = false ∧ CommandFrame s t) ∧
  (∀ s t : State, step s = .next t → s.keyValid = false → t.keyValid = true →
    s.busy = true ∧ t.busy = false ∧ s.cmdLast = 0x03 ∧ t.errCode = 0x00) ∧
  (∀ s t : State, step s = .next t → s.keyValid = true → t.keyValid = false →
    (s.busy = true ∧ t.busy = false ∧ s.cmdLast = 0x04 ∧ t.errCode = 0x00) ∨
    (s.busy = true ∧ t.busy = false ∧ s.cmdLast = 0x03 ∧ t.errCode ≠ 0x00) ∨
    s.program.head? = some .reset) ∧
  (∀ s t : State, step s = .next t → s.busy = true → t.busy = false →
    (s.cmdLast = 0x04 → t.errCode = 0x00 → t.keyValid = false) ∧
    (s.cmdLast = 0x03 → t.errCode ≠ 0x00 → t.keyValid = false)) ∧
  (∀ s : State, (applyReset s).keyValid = false)

/-- Whole machine (10_state.md, the paragraph on KEY): a step changes KEY only as the completion of a successful
LOADKEY, to the byte at index 4 of its input with KEY_VALID set, or as a reset, to 0x00. -/
def Obligations.KeyIsWrittenOnlyByLoadKey : Prop :=
  ∀ s t : State, step s = .next t → t.key ≠ s.key →
    (s.busy = true ∧ t.busy = false ∧ s.cmdLast = 0x03 ∧ t.errCode = 0x00 ∧ t.keyValid = true ∧
      inByte s 4 = some t.key) ∨
    (s.program.head? = some .reset ∧ t.key = 0x00)

/-- R90, involution: KEYXOR of `b` under a key, put through KEYXOR again under the same key, gives `b`. -/
def Obligations.KeyXorIsAnInvolution : Prop :=
  ∀ (s t u : State) (b x : List Byte), InputIs s b → b.length ≤ 512 → s.keyValid = true →
    exec .keyxor s = .next t → OutputIs t x → InputIs u x → u.keyValid = true → u.key = s.key →
    ∃ v, exec .keyxor u = .next v ∧ v.errCode = 0x00 ∧ OutputIs v b

/-! ## Host bus transactions -/

/-- What a host read returns at each readable address, as a byte in the host's variable and nothing else changed:
STATUS at any time, everything else while no command is pending (44_host_access.md, the read's pseudocode). -/
def Obligations.HostReadReturnsTheByte : Prop :=
  ∀ s : State,
    (∃ v : Byte, exec (.hostRd 0x001) s = .next { s with hostReads := v :: s.hostReads } ∧
      v.toNat = s.busy.toNat + 2 * s.done.toNat + 4 * s.err.toNat + 8 * s.keyValid.toNat) ∧
    (s.busy = false →
      exec (.hostRd 0x000) s = .next { s with hostReads := s.cmdLast :: s.hostReads } ∧
      exec (.hostRd 0x002) s = .next { s with hostReads := s.errCode :: s.hostReads } ∧
      exec (.hostRd 0x003) s = .next { s with hostReads := s.key :: s.hostReads } ∧
      exec (.hostRd 0x004) s = .next { s with hostReads := BitVec.ofNat 8 s.inLen.toNat :: s.hostReads } ∧
      exec (.hostRd 0x005) s = .next { s with hostReads := BitVec.ofNat 8 (s.inLen.toNat / 256) :: s.hostReads } ∧
      exec (.hostRd 0x006) s = .next { s with hostReads := BitVec.ofNat 8 s.outLen.toNat :: s.hostReads } ∧
      exec (.hostRd 0x007) s = .next { s with hostReads := BitVec.ofNat 8 (s.outLen.toNat / 256) :: s.hostReads } ∧
      (∀ i v, i < 512 → inByte s i = some v →
        exec (.hostRd (BitVec.ofNat 11 (0x200 + i))) s = .next { s with hostReads := v :: s.hostReads }) ∧
      (∀ i v, i < 512 → i < s.outLen.toNat → outByte s i = some v →
        exec (.hostRd (BitVec.ofNat 11 (0x400 + i))) s = .next { s with hostReads := v :: s.hostReads }))

/-- What a host write stores while no command is pending, and that nothing else changes: the low and the high part of
IN_LEN, with bits 7:2 of the high byte discarded, and a byte of IN_BUF, which is then written (44_host_access.md, the
write's pseudocode). A write to CMD is `CommandStartSetsItsState`. -/
def Obligations.HostWriteStoresItsByte : Prop :=
  ∀ (s : State) (v : Byte), s.busy = false →
    (∃ l : Len, exec (.hostWr 0x004 v) s = .next { s with inLen := l } ∧
      l.toNat = s.inLen.toNat / 256 * 256 + v.toNat) ∧
    (∃ l : Len, exec (.hostWr 0x005 v) s = .next { s with inLen := l } ∧
      l.toNat = v.toNat % 4 * 256 + s.inLen.toNat % 256) ∧
    (∀ i, i < 512 → ∃ m : Memory, exec (.hostWr (BitVec.ofNat 11 (0x200 + i)) v) s = .next { s with mem := m } ∧
      m.read (0x200 + i) = some v ∧ ∀ a, a ≠ 0x200 + i → m.read a = s.mem.read a)

/-- R95, write to a read-only location: STATUS, ERRCODE, KEY, OUT_LEN_LO, OUT_LEN_HI and every byte of OUT_BUF; it
changes nothing, and no host write ever changes KEY. -/
def Obligations.ReadOnlyLocationsRefuseWrites : Prop :=
  (∀ (s : State) (a : BusAddr) (v : Byte), s.busy = false →
    (a = 0x001 ∨ a = 0x002 ∨ a = 0x003 ∨ a = 0x006 ∨ a = 0x007 ∨ (0x400 ≤ a ∧ a ≤ 0x5FF)) →
    exec (.hostWr a v) s = .fault .writeReadOnly ∧
    (∀ rest, s.faultRecord = none → s.program = .txn (writeWord a v) :: rest →
      stepRecording s = { s with faultRecord := some .writeReadOnly })) ∧
  (∀ (s t : State) (a : BusAddr) (v : Byte), exec (.hostWr a v) s = .next t → t.key = s.key)

/-- R96, access while a command is pending: every access but a read of STATUS is BUSY_ACCESS and changes nothing, a
second write to CMD included. -/
def Obligations.PendingCommandAllowsOnlyStatusReads : Prop :=
  ∀ s : State, s.busy = true →
    (∀ a v, exec (.hostWr a v) s = .fault .busyAccess) ∧
    (∀ a, a ≠ 0x001 → exec (.hostRd a) s = .fault .busyAccess) ∧
    (∃ v, exec (.hostRd 0x001) s = .next { s with hostReads := v :: s.hostReads }) ∧
    (∀ i w rest, s.faultRecord = none → 0 < s.delay → s.program = .txn w :: rest →
      encode i = .transaction w → i ≠ .hostRd 0x001 →
      stepRecording s = { s with faultRecord := some .busyAccess })

/-- R97, reads of bytes that hold no value: `IN[i]` never written is READ_UNWRITTEN, `OUT[i]` at or past OUT_LEN is
READ_STALE, whether or not an older result stands there. -/
def Obligations.ValuelessBytesFaultOnRead : Prop :=
  ∀ (s : State) (i : Nat), s.busy = false → i < 512 →
    (written s i = false → exec (.hostRd (BitVec.ofNat 11 (0x200 + i))) s = .fault .readUnwritten) ∧
    (s.outLen.toNat ≤ i → exec (.hostRd (BitVec.ofNat 11 (0x400 + i))) s = .fault .readStale)

/-- R41, reserved addresses: a host read or write of 0x008 to 0x1FF or 0x600 to 0x7FF is RESERVED_ACCESS and changes no
state of the block. -/
def Obligations.ReservedAddressesFault : Prop :=
  ∀ (s : State) (a : BusAddr) (v : Byte), s.busy = false → ((0x008 ≤ a ∧ a ≤ 0x1FF) ∨ 0x600 ≤ a) →
    exec (.hostRd a) s = .fault .reservedAccess ∧ exec (.hostWr a v) s = .fault .reservedAccess ∧
    (∀ w rest, s.faultRecord = none → w = readWord a ∨ w = writeWord a v → s.program = .txn w :: rest →
      stepRecording s = { s with faultRecord := some .reservedAccess })

/-- A read has no side effect and is idempotent. A write anywhere but to CMD only stores its byte, and writing the same
byte twice leaves the same state as writing it once (20_memory.md section 3): a write that is performed goes to a byte of
IN_BUF, and every other byte of memory and IN_LEN are kept, or to a half of IN_LEN, and the other half and all of memory
are kept. -/
def Obligations.OnlyCommandWritesHaveSideEffects : Prop :=
  (∀ (s t : State) (a : BusAddr), exec (.hostRd a) s = .next t →
    ∃ v, t = { s with hostReads := v :: s.hostReads } ∧
      exec (.hostRd a) t = .next { t with hostReads := v :: t.hostReads }) ∧
  (∀ (s t : State) (a : BusAddr) (v : Byte), exec (.hostWr a v) s = .next t → a ≠ 0x000 →
    t = { s with inLen := t.inLen, mem := t.mem } ∧ exec (.hostWr a v) t = .next t ∧
    (a = 0x004 ∨ a = 0x005 ∨ ∃ i, locate a = .inBuf i) ∧
    (∀ i, locate a = .inBuf i → t.inLen = s.inLen ∧ t.mem.read (Config.inBase + i) = some v ∧
      ∀ b, b ≠ Config.inBase + i → t.mem.read b = s.mem.read b) ∧
    (a = 0x004 → t.mem = s.mem ∧ t.inLen.toNat = s.inLen.toNat / 256 * 256 + v.toNat) ∧
    (a = 0x005 → t.mem = s.mem ∧ t.inLen.toNat = v.toNat % 4 * 256 + s.inLen.toNat % 256))

/-- Whole machine (10_state.md section 3): a step changes a byte of IN_BUF only as a host write of that value to that
byte or as a reset, and a byte of OUT_BUF only as the block's step, which completes the pending command, or as a reset. -/
def Obligations.EachBufferHasOneWriter : Prop :=
  ∀ (s t : State) (i : Nat), step s = .next t → i < 512 →
    (inByte t i ≠ inByte s i →
      s.busy = false ∧ (∃ v rest, inByte t i = some v ∧
        (s.program = .txn (writeWord (BitVec.ofNat 11 (0x200 + i)) v) :: rest ∨
          (s.program = .wrLast (BitVec.ofNat 11 (0x200 + i)) :: rest ∧ s.hostReads.head? = some v))) ∨
      s.program.head? = some .reset) ∧
    (outByte t i ≠ outByte s i →
      (blockMoves s = true ∧ s.busy = true ∧ t.busy = false ∧ t.done = true) ∨ s.program.head? = some .reset)

/-! ## Faults, reset, invariant -/

/-- R34, the fault record: empty at the start of a run, it takes the reason of the first model fault with nothing else
changed, and nothing clears it, neither any later step nor reset. -/
def Obligations.FaultRecordIsSticky : Prop :=
  State.reset.faultRecord = none ∧
  (∀ (s : State) (r : Fault), s.faultRecord = none → step s = .fault r →
    (stepRecording s).faultRecord = some r ∧ SameButFaultRecord s (stepRecording s)) ∧
  (∀ (s : State) (r : Fault), s.faultRecord = some r →
    (stepRecording s).faultRecord = some r ∧ (applyReset s).faultRecord = some r)

/-- Reset as the host's next operation on the host's turn, a command pending or not: one step leaves every piece of the
block's state at its reset value, a pending command discarded, no byte of either buffer readable, and the fault record
unchanged (70_reset_and_hazards.md section 1). That reset is an operation of the host's program, which survives it with
the bytes read, is the model's choice (log entry 11), and so is that a run with a recorded fault takes no step (log
entry 5) and that a pending command with no delay left completes first (log entry 1). `ResetGivesTheResetValues` says
what reset does to every state. -/
def Obligations.ResetStepLeavesTheResetState : Prop :=
  ∀ (s : State) (rest : List HostOp), s.faultRecord = none → (s.busy = false ∨ 0 < s.delay) →
    s.program = .reset :: rest →
    ∃ t, step s = .next t ∧ t.cmdLast = 0x00 ∧ t.busy = false ∧ t.done = false ∧ t.err = false ∧
      t.keyValid = false ∧ statusByte t = 0x00 ∧ t.errCode = 0x00 ∧ t.key = 0x00 ∧ t.inLen = 0 ∧ t.outLen = 0 ∧
      (∀ i, i < 512 → written t i = false ∧
        exec (.hostRd (BitVec.ofNat 11 (0x200 + i))) t = .fault .readUnwritten ∧
        exec (.hostRd (BitVec.ofNat 11 (0x400 + i))) t = .fault .readStale) ∧
      t.faultRecord = s.faultRecord ∧ t.program = rest ∧ t.hostReads = s.hostReads

/-- The state right after reset has the values of 70_reset_and_hazards.md section 1 and meets the invariant. -/
def Obligations.ResetStateMeetsTheInvariant : Prop :=
  State.reset.Inv ∧ State.reset.cmdLast = 0x00 ∧ statusByte State.reset = 0x00 ∧ State.reset.errCode = 0x00 ∧
    State.reset.key = 0x00 ∧ State.reset.inLen = 0 ∧ State.reset.outLen = 0 ∧ State.reset.mem = []

/-- Every step keeps the invariant, from every state that meets it. -/
def Obligations.EveryStepKeepsTheInvariant : Prop :=
  ∀ s t : State, s.Inv → step s = .next t → t.Inv

/-! ## The host reference protocol -/

/-- checksum16 is the 16-bit wrap-around sum of the big-endian words, a trailing odd byte left out, ORed with 0x5115;
so every mask bit is set (45_host_protocol.md). -/
def Obligations.Checksum16SumsBigEndianWords : Prop :=
  (∀ data : List Byte,
    checksum16 data =
      BitVec.ofNat 16 (((List.range (data.length / 2)).map
        (fun i => 256 * (data.getD (2 * i) 0).toNat + (data.getD (2 * i + 1) 0).toNat)).sum) ||| 0x5115 ∧
    checksum16 data &&& 0x5115 = 0x5115) ∧
  (∀ (data : List Byte) (b : Byte), data.length % 2 = 0 → checksum16 (data ++ [b]) = checksum16 data)

/-- R102, the burn buffer: the seed, the two constants and the checksum, high byte first; its length is the seed's
plus 4; and the rule's example. -/
def Obligations.BurnBufferLayout : Prop :=
  (∀ s : List Byte,
    burnBuffer s = s ++ [0x06, 0x1E, BitVec.ofNat 8 ((checksum16 s).toNat / 256), BitVec.ofNat 8 (checksum16 s).toNat] ∧
    (burnBuffer s).length = s.length + 4) ∧
  burnBuffer [0x11, 0x22] = [0x11, 0x22, 0x06, 0x1E, 0x51, 0x37]

/-- The host's pseudo-operations `load` and `setlen`, run on the machine while it is idle, make the bytes the command's
input and change nothing else of the block (30_encoding.md, the table of expansions). -/
def Obligations.LoadAndSetlenMakeTheInput : Prop :=
  ∀ (s : State) (bs : List Byte), s.faultRecord = none → s.busy = false → bs.length ≤ 512 →
    ∃ t, drive (load bs ++ setlen (BitVec.ofNat 10 bs.length)) s = .next t ∧ InputIs t bs ∧
      t = { s with inLen := t.inLen, mem := t.mem, program := t.program } ∧
      MemoryUnchangedOutside s t 0x200 bs.length

/-- Driving host operations one by one is a run of the machine on the whole program. The program as a field of the
state is the model's choice (log entry 2). -/
def Obligations.DriveIsARunOfTheMachine : Prop :=
  ∀ (ops : List HostOp) (s t : State), drive ops s = .next t →
    ∃ k, runSteps k { s with program := ops } = .next { t with program := [] }

/-- FRAME run over the bus, from loading the payload to reading the result back, gives the host the frame of the
payload or, for 255 bytes and more, EncodingError; the machine is idle again, its key untouched. That a payload over
512 bytes ends so without being loaded is the model's choice (log entry 9). -/
def Obligations.FrameOverTheBus : Prop :=
  ∀ (s : State) (p : List Byte), s.faultRecord = none → s.busy = false →
    ∃ t, t.faultRecord = none ∧ t.busy = false ∧ t.key = s.key ∧ t.keyValid = s.keyValid ∧
      (p.length ≤ 254 →
        runBlock 0x01 p s = .next (.ok ([0x86, BitVec.ofNat 8 (p.length + 1)] ++ p ++ [fold p]), t)) ∧
      (254 < p.length → runBlock 0x01 p s = .next (.error .encoding, t))

/-- transceive: the keep-alive probe is sent first and its failure ends everything; then the frame of the payload, or
EncodingError for a payload of 255 bytes or more, only the probe sent; a transport failure is TransportError; an accepted
reply gives its payload and a malformed one ProtocolError with its code. Nothing else is sent and the key is untouched
(45_host_protocol.md). The transport is any function of the messages sent so far (log entry 10); that a payload over 512
bytes ends like one of 255 is the model's reading (log entry 9). -/
def Obligations.TransceiveSendsProbeThenFrame : Prop :=
  ∀ (tr : Transport) (p : List Byte) (h : Session), SessionIdle h →
    let probe : List Byte := [0x00, 0xA4, 0x04, 0x00]
    let ends := fun result sent => ∃ h', EndsWith (transceive tr p h) result sent h' ∧
      h'.block.key = h.block.key ∧ h'.block.keyValid = h.block.keyValid
    (tr (h.sent ++ [probe]) = none → ends (.error .transport) (h.sent ++ [probe])) ∧
    (∀ x, tr (h.sent ++ [probe]) = some x →
      (254 < p.length → ends (.error .encoding) (h.sent ++ [probe])) ∧
      (p.length ≤ 254 →
        (tr (h.sent ++ [probe, frameOf p]) = none → ends (.error .transport) (h.sent ++ [probe, frameOf p])) ∧
        (∀ r q, tr (h.sent ++ [probe, frameOf p]) = some r → ReplyCarries r q →
          ends (.ok q) (h.sent ++ [probe, frameOf p])) ∧
        (∀ r code, tr (h.sent ++ [probe, frameOf p]) = some r → ReplyRefusedWith r code →
          ends (.error (.protocol code)) (h.sent ++ [probe, frameOf p]))))

/-- burnSeed end to end, for every seed of at most 249 bytes, every device info of at least 5 bytes and every
acknowledgment: four messages are sent, probe, GetInfo frame, probe, and the frame of 0x18 with the burn buffer XORed
with the byte at index 4 of the info; the acknowledgment's payload is returned and the key is used up
(45_host_protocol.md, the source's end-to-end scenario). The transport is any function of the messages sent so far (log
entry 10). -/
def Obligations.BurnSeedSendsTheKeyedBurnBuffer : Prop :=
  ∀ (tr : Transport) (seed info ack x y r₁ r₂ : List Byte) (k : Byte) (h : Session),
    SessionIdle h → seed.length ≤ 249 → info[4]? = some k →
    let probe : List Byte := [0x00, 0xA4, 0x04, 0x00]
    let getInfoFrame : List Byte := [0x86, 0x02, 0x10, 0x10]
    let burnFrame : List Byte := frameOf (0x18 :: (burnBuffer seed).map (fun b => b ^^^ k))
    tr (h.sent ++ [probe]) = some x → tr (h.sent ++ [probe, getInfoFrame]) = some r₁ → ReplyCarries r₁ info →
    tr (h.sent ++ [probe, getInfoFrame, probe]) = some y →
    tr (h.sent ++ [probe, getInfoFrame, probe, burnFrame]) = some r₂ → ReplyCarries r₂ ack →
    ∃ h', EndsWith (burnSeed tr seed h) (.ok ack) (h.sent ++ [probe, getInfoFrame, probe, burnFrame]) h' ∧
      h'.block.key = k ∧ h'.block.keyValid = false

/-- burnSeed ends at its first error, whatever the error is, with that error unchanged and nothing more sent
(45_host_protocol.md): a transport failure at each of the four calls, a malformed reply to the GetInfo frame or to the
burn frame, device info of fewer than 5 bytes (no key left valid, no burn request sent), and a seed of 250 bytes or more,
which is EncodingError with the probe, the GetInfo frame and the probe sent. `TransceiveSendsProbeThenFrame` says the same
of transceive and so of GetInfo. The transport is any function of the messages sent so far (log entry 10); that a seed of
509 bytes or more ends like one of 250 is the model's reading (log entry 9). -/
def Obligations.FirstErrorEndsTheHostOperation : Prop :=
  ∀ (tr : Transport) (seed : List Byte) (h : Session), SessionIdle h →
    let probe : List Byte := [0x00, 0xA4, 0x04, 0x00]
    let getInfoFrame : List Byte := [0x86, 0x02, 0x10, 0x10]
    let sent₁ := h.sent ++ [probe]
    let sent₂ := h.sent ++ [probe, getInfoFrame]
    let sent₃ := h.sent ++ [probe, getInfoFrame, probe]
    let ends := fun e sent => ∃ h', EndsWith (burnSeed tr seed h) (.error e) sent h'
    (tr sent₁ = none → ends .transport sent₁) ∧
    (∀ x, tr sent₁ = some x →
      (tr sent₂ = none → ends .transport sent₂) ∧
      (∀ r code, tr sent₂ = some r → ReplyRefusedWith r code → ends (.protocol code) sent₂) ∧
      (∀ r info, tr sent₂ = some r → ReplyCarries r info → info.length < 5 →
        ∃ h', EndsWith (burnSeed tr seed h) (.error (.protocol 0x05)) sent₂ h' ∧ h'.block.keyValid = false) ∧
      (∀ r info k, tr sent₂ = some r → ReplyCarries r info → info[4]? = some k →
        let sent₄ := h.sent ++ [probe, getInfoFrame, probe, frameOf (0x18 :: (burnBuffer seed).map (fun b => b ^^^ k))]
        (tr sent₃ = none → ends .transport sent₃) ∧
        (∀ y, tr sent₃ = some y →
          (249 < seed.length → ends .encoding sent₃) ∧
          (seed.length ≤ 249 → tr sent₄ = none → ends .transport sent₄) ∧
          (seed.length ≤ 249 → ∀ r' code, tr sent₄ = some r' → ReplyRefusedWith r' code →
            ends (.protocol code) sent₄))))

/-! ## Added after a review -/

/-- A run that has recorded a model fault is over: every step answers that fault again and changes nothing, even with a
reset next, and no step that answers a next state starts from or leaves a recorded fault (60_exceptions.md section 1).
That the record stops the step itself is the model's reading (log entry 5). -/
def Obligations.RecordedRunIsOver : Prop :=
  (∀ (s : State) (r : Fault), s.faultRecord = some r → step s = .fault r ∧ stepRecording s = s) ∧
  (∀ s t : State, step s = .next t → s.faultRecord = none ∧ t.faultRecord = none)

/-- R126 and R127, reset of any state, with a command pending or a fault recorded or neither: every piece of the block's
state has its reset value, the pending command is gone with no result and no code, no byte of either buffer is readable,
and the fault record is unchanged. -/
def Obligations.ResetGivesTheResetValues : Prop :=
  ∀ s : State,
    let t := applyReset s
    t.cmdLast = 0x00 ∧ t.busy = false ∧ t.done = false ∧ t.err = false ∧ t.keyValid = false ∧ statusByte t = 0x00 ∧
    t.errCode = 0x00 ∧ t.key = 0x00 ∧ t.inLen = 0 ∧ t.outLen = 0 ∧ t.faultRecord = s.faultRecord ∧
    ∀ i, i < 512 → written t i = false ∧
      exec (.hostRd (BitVec.ofNat 11 (0x200 + i))) t = .fault .readUnwritten ∧
      exec (.hostRd (BitVec.ofNat 11 (0x400 + i))) t = .fault .readStale
end

