-- ==== Sys2Proof/Laws/State.lean ====
section
/-! SUPPORT. What each state update does to each field, one lemma a field, so that no later proof unfolds a record
update. -/

namespace Sys2Proof.Laws

open Sys2Proof.Machine

@[simp] theorem startCommand_cmdLast (v : Byte) (s : State) :
    (startCommand v s).cmdLast = v := rfl
@[simp] theorem startCommand_busy (v : Byte) (s : State) :
    (startCommand v s).busy = true := rfl
@[simp] theorem startCommand_done (v : Byte) (s : State) :
    (startCommand v s).done = false := rfl
@[simp] theorem startCommand_err (v : Byte) (s : State) :
    (startCommand v s).err = false := rfl
@[simp] theorem startCommand_keyValid (v : Byte) (s : State) :
    (startCommand v s).keyValid = s.keyValid := rfl
@[simp] theorem startCommand_errCode (v : Byte) (s : State) :
    (startCommand v s).errCode = 0x00 := rfl
@[simp] theorem startCommand_key (v : Byte) (s : State) :
    (startCommand v s).key = s.key := rfl
@[simp] theorem startCommand_inLen (v : Byte) (s : State) :
    (startCommand v s).inLen = s.inLen := rfl
@[simp] theorem startCommand_outLen (v : Byte) (s : State) :
    (startCommand v s).outLen = 0 := rfl
@[simp] theorem startCommand_mem (v : Byte) (s : State) :
    (startCommand v s).mem = s.mem := rfl
@[simp] theorem startCommand_faultRecord (v : Byte) (s : State) :
    (startCommand v s).faultRecord = s.faultRecord := rfl
@[simp] theorem startCommand_program (v : Byte) (s : State) :
    (startCommand v s).program = s.program := rfl
@[simp] theorem startCommand_hostReads (v : Byte) (s : State) :
    (startCommand v s).hostReads = s.hostReads := rfl
@[simp] theorem startCommand_delay (v : Byte) (s : State) :
    (startCommand v s).delay = Config.latency s.starts := rfl
@[simp] theorem startCommand_starts (v : Byte) (s : State) :
    (startCommand v s).starts = s.starts + 1 := rfl

@[simp] theorem complete_cmdLast (c : ErrorCode) (s : State) :
    (complete c s).cmdLast = s.cmdLast := rfl
@[simp] theorem complete_busy (c : ErrorCode) (s : State) :
    (complete c s).busy = false := rfl
@[simp] theorem complete_done (c : ErrorCode) (s : State) :
    (complete c s).done = true := rfl
@[simp] theorem complete_err (c : ErrorCode) (s : State) :
    (complete c s).err = errFlag c := rfl
@[simp] theorem complete_keyValid (c : ErrorCode) (s : State) :
    (complete c s).keyValid = s.keyValid := rfl
@[simp] theorem complete_errCode (c : ErrorCode) (s : State) :
    (complete c s).errCode = c.toByte := rfl
@[simp] theorem complete_key (c : ErrorCode) (s : State) :
    (complete c s).key = s.key := rfl
@[simp] theorem complete_inLen (c : ErrorCode) (s : State) :
    (complete c s).inLen = s.inLen := rfl
@[simp] theorem complete_outLen (c : ErrorCode) (s : State) :
    (complete c s).outLen = s.outLen := rfl
@[simp] theorem complete_mem (c : ErrorCode) (s : State) :
    (complete c s).mem = s.mem := rfl
@[simp] theorem complete_faultRecord (c : ErrorCode) (s : State) :
    (complete c s).faultRecord = s.faultRecord := rfl
@[simp] theorem complete_program (c : ErrorCode) (s : State) :
    (complete c s).program = s.program := rfl
@[simp] theorem complete_hostReads (c : ErrorCode) (s : State) :
    (complete c s).hostReads = s.hostReads := rfl
@[simp] theorem complete_delay (c : ErrorCode) (s : State) :
    (complete c s).delay = 0 := rfl
@[simp] theorem complete_starts (c : ErrorCode) (s : State) :
    (complete c s).starts = s.starts := rfl

@[simp] theorem dropKey_cmdLast (s : State) :
    (dropKey s).cmdLast = s.cmdLast := rfl
@[simp] theorem dropKey_busy (s : State) :
    (dropKey s).busy = s.busy := rfl
@[simp] theorem dropKey_done (s : State) :
    (dropKey s).done = s.done := rfl
@[simp] theorem dropKey_err (s : State) :
    (dropKey s).err = s.err := rfl
@[simp] theorem dropKey_keyValid (s : State) :
    (dropKey s).keyValid = false := rfl
@[simp] theorem dropKey_errCode (s : State) :
    (dropKey s).errCode = s.errCode := rfl
@[simp] theorem dropKey_key (s : State) :
    (dropKey s).key = s.key := rfl
@[simp] theorem dropKey_inLen (s : State) :
    (dropKey s).inLen = s.inLen := rfl
@[simp] theorem dropKey_outLen (s : State) :
    (dropKey s).outLen = s.outLen := rfl
@[simp] theorem dropKey_mem (s : State) :
    (dropKey s).mem = s.mem := rfl
@[simp] theorem dropKey_faultRecord (s : State) :
    (dropKey s).faultRecord = s.faultRecord := rfl
@[simp] theorem dropKey_program (s : State) :
    (dropKey s).program = s.program := rfl
@[simp] theorem dropKey_hostReads (s : State) :
    (dropKey s).hostReads = s.hostReads := rfl
@[simp] theorem dropKey_delay (s : State) :
    (dropKey s).delay = s.delay := rfl
@[simp] theorem dropKey_starts (s : State) :
    (dropKey s).starts = s.starts := rfl

@[simp] theorem returnByte_cmdLast (v : Byte) (s : State) :
    (returnByte v s).cmdLast = s.cmdLast := rfl
@[simp] theorem returnByte_busy (v : Byte) (s : State) :
    (returnByte v s).busy = s.busy := rfl
@[simp] theorem returnByte_done (v : Byte) (s : State) :
    (returnByte v s).done = s.done := rfl
@[simp] theorem returnByte_err (v : Byte) (s : State) :
    (returnByte v s).err = s.err := rfl
@[simp] theorem returnByte_keyValid (v : Byte) (s : State) :
    (returnByte v s).keyValid = s.keyValid := rfl
@[simp] theorem returnByte_errCode (v : Byte) (s : State) :
    (returnByte v s).errCode = s.errCode := rfl
@[simp] theorem returnByte_key (v : Byte) (s : State) :
    (returnByte v s).key = s.key := rfl
@[simp] theorem returnByte_inLen (v : Byte) (s : State) :
    (returnByte v s).inLen = s.inLen := rfl
@[simp] theorem returnByte_outLen (v : Byte) (s : State) :
    (returnByte v s).outLen = s.outLen := rfl
@[simp] theorem returnByte_mem (v : Byte) (s : State) :
    (returnByte v s).mem = s.mem := rfl
@[simp] theorem returnByte_faultRecord (v : Byte) (s : State) :
    (returnByte v s).faultRecord = s.faultRecord := rfl
@[simp] theorem returnByte_program (v : Byte) (s : State) :
    (returnByte v s).program = s.program := rfl
@[simp] theorem returnByte_hostReads (v : Byte) (s : State) :
    (returnByte v s).hostReads = v :: s.hostReads := rfl
@[simp] theorem returnByte_delay (v : Byte) (s : State) :
    (returnByte v s).delay = s.delay := rfl
@[simp] theorem returnByte_starts (v : Byte) (s : State) :
    (returnByte v s).starts = s.starts := rfl

@[simp] theorem hostTurn_cmdLast (rest : List HostOp) (s : State) :
    (hostTurn rest s).cmdLast = s.cmdLast := rfl
@[simp] theorem hostTurn_busy (rest : List HostOp) (s : State) :
    (hostTurn rest s).busy = s.busy := rfl
@[simp] theorem hostTurn_done (rest : List HostOp) (s : State) :
    (hostTurn rest s).done = s.done := rfl
@[simp] theorem hostTurn_err (rest : List HostOp) (s : State) :
    (hostTurn rest s).err = s.err := rfl
@[simp] theorem hostTurn_keyValid (rest : List HostOp) (s : State) :
    (hostTurn rest s).keyValid = s.keyValid := rfl
@[simp] theorem hostTurn_errCode (rest : List HostOp) (s : State) :
    (hostTurn rest s).errCode = s.errCode := rfl
@[simp] theorem hostTurn_key (rest : List HostOp) (s : State) :
    (hostTurn rest s).key = s.key := rfl
@[simp] theorem hostTurn_inLen (rest : List HostOp) (s : State) :
    (hostTurn rest s).inLen = s.inLen := rfl
@[simp] theorem hostTurn_outLen (rest : List HostOp) (s : State) :
    (hostTurn rest s).outLen = s.outLen := rfl
@[simp] theorem hostTurn_mem (rest : List HostOp) (s : State) :
    (hostTurn rest s).mem = s.mem := rfl
@[simp] theorem hostTurn_faultRecord (rest : List HostOp) (s : State) :
    (hostTurn rest s).faultRecord = s.faultRecord := rfl
@[simp] theorem hostTurn_program (rest : List HostOp) (s : State) :
    (hostTurn rest s).program = rest := rfl
@[simp] theorem hostTurn_hostReads (rest : List HostOp) (s : State) :
    (hostTurn rest s).hostReads = s.hostReads := rfl
@[simp] theorem hostTurn_delay (rest : List HostOp) (s : State) :
    (hostTurn rest s).delay = if s.busy then s.delay - 1 else s.delay := rfl
@[simp] theorem hostTurn_starts (rest : List HostOp) (s : State) :
    (hostTurn rest s).starts = s.starts := rfl

@[simp] theorem applyReset_cmdLast (s : State) :
    (applyReset s).cmdLast = 0x00 := rfl
@[simp] theorem applyReset_busy (s : State) :
    (applyReset s).busy = false := rfl
@[simp] theorem applyReset_done (s : State) :
    (applyReset s).done = false := rfl
@[simp] theorem applyReset_err (s : State) :
    (applyReset s).err = false := rfl
@[simp] theorem applyReset_keyValid (s : State) :
    (applyReset s).keyValid = false := rfl
@[simp] theorem applyReset_errCode (s : State) :
    (applyReset s).errCode = 0x00 := rfl
@[simp] theorem applyReset_key (s : State) :
    (applyReset s).key = 0x00 := rfl
@[simp] theorem applyReset_inLen (s : State) :
    (applyReset s).inLen = 0 := rfl
@[simp] theorem applyReset_outLen (s : State) :
    (applyReset s).outLen = 0 := rfl
@[simp] theorem applyReset_mem (s : State) :
    (applyReset s).mem = [] := rfl
@[simp] theorem applyReset_faultRecord (s : State) :
    (applyReset s).faultRecord = s.faultRecord := rfl
@[simp] theorem applyReset_program (s : State) :
    (applyReset s).program = s.program := rfl
@[simp] theorem applyReset_hostReads (s : State) :
    (applyReset s).hostReads = s.hostReads := rfl
@[simp] theorem applyReset_delay (s : State) :
    (applyReset s).delay = 0 := rfl
@[simp] theorem applyReset_starts (s : State) :
    (applyReset s).starts = s.starts := rfl

end Sys2Proof.Laws
end

