-- ==== Sys2Proof/Laws/Memory.lean ====
section
/-! SUPPORT. The laws of memory: what a read after a write gives, that every memory operation keeps the canonical form,
and one specification each for reading and writing a byte sequence. -/

namespace Sys2Proof.Laws

open Sys2Proof.Machine

@[simp] theorem read_nil (a : Nat) : Memory.read [] a = none := rfl

theorem read_cons (b : Nat) (v : Byte) (m : Memory) (a : Nat) :
    Memory.read ((b, v) :: m) a = if a = b then some v else Memory.read m a := rfl

/-- A memory whose addresses all lie above `a` holds nothing at `a`. -/
theorem read_eq_none_of_below {m : Memory} {a : Nat} (h : ∀ c ∈ m, a < c.1) : Memory.read m a = none := by
  induction m with
  | nil => rfl
  | cons c m ih =>
    obtain ⟨b, v⟩ := c
    have hb : a < b := h (b, v) (by simp)
    rw [read_cons, if_neg (by omega), ih (fun c hc => h c (by simp [hc]))]

/-- A byte that is read is listed. -/
theorem mem_of_read {m : Memory} {a : Nat} {v : Byte} (h : Memory.read m a = some v) : (a, v) ∈ m := by
  induction m with
  | nil => simp at h
  | cons c m ih =>
    obtain ⟨b, w⟩ := c
    rw [read_cons] at h
    split at h
    · next hab => simp_all
    · simp [ih h]

/-- Read after write (R93, R94): the written address reads the value, every other reads as before. -/
theorem read_write (m : Memory) (a : Nat) (v : Byte) (b : Nat) :
    (m.write a v).read b = if b = a then some v else m.read b := by
  induction m with
  | nil => rfl
  | cons c m ih =>
    obtain ⟨x, w⟩ := c
    simp only [Memory.write]
    split
    · rfl
    · split
      · next hax => subst hax; simp only [read_cons]; split <;> rfl
      · next hlt hne =>
        rw [read_cons, ih, read_cons]
        by_cases hbx : b = x
        · have : b ≠ a := by omega
          simp [hbx, Ne.symm hne]
        · simp [hbx]

/-- The addresses a write leaves listed: the old ones and the written one. -/
theorem mem_write {m : Memory} {a : Nat} {v : Byte} {c : Host.Cell} (h : c ∈ m.write a v) :
    c ∈ m ∨ c = (a, v) := by
  induction m with
  | nil => simpa [Memory.write] using h
  | cons d m ih =>
    obtain ⟨x, w⟩ := d
    simp only [Memory.write] at h
    split at h
    · simp only [List.mem_cons] at h ⊢; tauto
    · split at h
      · simp only [List.mem_cons] at h ⊢; tauto
      · simp only [List.mem_cons] at h ⊢
        rcases h with h | h
        · exact .inl (.inl h)
        · rcases ih h with h | h
          · exact .inl (.inr h)
          · exact .inr h

/-- A write keeps the canonical form. -/
theorem wf_write {m : Memory} (h : m.wf) (a : Nat) (v : Byte) : (m.write a v).wf := by
  induction m with
  | nil => simp [Memory.write, Memory.wf]
  | cons d m ih =>
    obtain ⟨x, w⟩ := d
    have hx : ∀ c ∈ m, x < c.1 := fun c hc => (List.pairwise_cons.mp h).1 c hc
    have hm : Memory.wf m := (List.pairwise_cons.mp h).2
    simp only [Memory.write]
    split
    · next hlt =>
      refine List.pairwise_cons.mpr ⟨fun c hc => ?_, h⟩
      rcases List.mem_cons.mp hc with rfl | hc
      · exact hlt
      · exact lt_trans hlt (hx c hc)
    · split
      · next heq => subst heq; exact List.pairwise_cons.mpr ⟨hx, hm⟩
      · next hlt hne =>
        refine List.pairwise_cons.mpr ⟨fun c hc => ?_, ih hm⟩
        rcases mem_write hc with hc | rfl
        · exact hx c hc
        · show x < a; omega

/-- Writing the same byte again changes nothing (R45). -/
theorem write_write_same (m : Memory) (a : Nat) (v : Byte) : (m.write a v).write a v = m.write a v := by
  induction m with
  | nil => simp [Memory.write]
  | cons d m ih =>
    obtain ⟨x, w⟩ := d
    simp only [Memory.write]
    split
    · simp [Memory.write]
    · split
      · simp [Memory.write]
      · next h1 h2 => simp [Memory.write, h1, h2, ih]

/-- Canonical memories that read alike are equal. -/
theorem eq_of_read_eq {m n : Memory} (hm : m.wf) (hn : n.wf) (h : ∀ a, m.read a = n.read a) : m = n := by
  induction m generalizing n with
  | nil =>
    cases n with
    | nil => rfl
    | cons d n => obtain ⟨y, w⟩ := d; simpa [read_cons] using h y
  | cons c m ih =>
    obtain ⟨x, v⟩ := c
    have hx := (List.pairwise_cons.mp hm).1
    have hm' : Memory.wf m := (List.pairwise_cons.mp hm).2
    cases n with
    | nil => simpa [read_cons] using h x
    | cons d n =>
      obtain ⟨y, w⟩ := d
      have hy := (List.pairwise_cons.mp hn).1
      have hn' : Memory.wf n := (List.pairwise_cons.mp hn).2
      have hxy : x = y := by
        by_contra hne
        have h1 := h x
        have h2 := h y
        simp only [read_cons, if_true, if_neg hne, if_neg (Ne.symm hne)] at h1 h2
        have a1 := hy _ (mem_of_read h1.symm)
        have a2 := hx _ (mem_of_read h2)
        simp only at a1 a2
        omega
      subst hxy
      have hv : v = w := by simpa [read_cons] using h x
      subst hv
      rw [ih hm' hn' (fun a => ?_)]
      by_cases hax : a = x
      · subst hax
        rw [read_eq_none_of_below hx, read_eq_none_of_below hy]
      · simpa [read_cons, hax] using h a

/-- What reading a sequence means: all of its bytes are held, and they are these. -/
theorem readSeq_eq_some {m : Memory} {a n : Nat} {p : List Byte} :
    m.readSeq a n = some p ↔ n = p.length ∧ ∀ i, i < p.length → m.read (a + i) = p[i]? := by
  induction n generalizing a p with
  | zero => cases p <;> simp [Memory.readSeq]
  | succ n ih =>
    constructor
    · intro h
      simp only [Memory.readSeq] at h
      split at h
      · next b bs hb hbs =>
        obtain ⟨hn, hr⟩ := ih.mp hbs
        cases h
        refine ⟨by simp [hn], fun i hi => ?_⟩
        cases i with
        | zero => simpa using hb
        | succ i =>
          have := hr i (by simpa using hi)
          rw [show a + (i + 1) = a + 1 + i by omega, this]; simp
      · cases h
    · rintro ⟨hn, hr⟩
      cases p with
      | nil => simp at hn
      | cons b bs =>
        have hb : m.read a = some b := by simpa using hr 0 (by simp)
        have hbs : m.readSeq (a + 1) n = some bs := ih.mpr ⟨by simpa using hn, fun i hi => by
          have := hr (i + 1) (by simpa using hi)
          rw [show a + 1 + i = a + (i + 1) by omega, this]; simp⟩
        simp [Memory.readSeq, hb, hbs]

/-- Reading a sequence fails exactly when one of its bytes is not held. -/
theorem readSeq_eq_none {m : Memory} {a n : Nat} :
    m.readSeq a n = none ↔ ∃ i, i < n ∧ m.read (a + i) = none := by
  induction n generalizing a with
  | zero => simp [Memory.readSeq]
  | succ n ih =>
    simp only [Memory.readSeq]
    constructor
    · intro h
      cases hb : m.read a with
      | none => exact ⟨0, by omega, by simpa using hb⟩
      | some b =>
        cases hbs : m.readSeq (a + 1) n with
        | none =>
          obtain ⟨i, hi, hr⟩ := ih.mp hbs
          exact ⟨i + 1, by omega, by rw [← hr]; congr 1; omega⟩
        | some bs => simp [hb, hbs] at h
    · rintro ⟨i, hi, hr⟩
      cases i with
      | zero => simp only [Nat.add_zero] at hr; simp [hr]
      | succ i =>
        have : m.readSeq (a + 1) n = none := ih.mpr ⟨i, by omega, by rw [← hr]; congr 1; omega⟩
        rw [this]
        split <;> simp_all

/-- Reading after writing a sequence: inside it the sequence's bytes, outside it everything as before. -/
theorem read_writeSeq (m : Memory) (a : Nat) (bs : List Byte) (b : Nat) :
    (m.writeSeq a bs).read b = if a ≤ b ∧ b < a + bs.length then bs[b - a]? else m.read b := by
  induction bs generalizing m a with
  | nil => simp only [Memory.writeSeq, List.length_nil]; rw [if_neg (by omega)]
  | cons v bs ih =>
    simp only [Memory.writeSeq, ih, read_write, List.length_cons]
    by_cases h0 : b = a
    · subst h0; rw [if_neg (by omega), if_pos (by omega)]; simp
    · by_cases h1 : a + 1 ≤ b ∧ b < a + 1 + bs.length
      · rw [if_pos h1, if_pos (by omega), show b - a = (b - (a + 1)) + 1 by omega, List.getElem?_cons_succ]
      · rw [if_neg h1, if_neg h0, if_neg (by omega)]

/-- Writing a sequence keeps the canonical form. -/
theorem wf_writeSeq {m : Memory} (h : m.wf) (a : Nat) (bs : List Byte) : (m.writeSeq a bs).wf := by
  induction bs generalizing m a with
  | nil => exact h
  | cons v bs ih => exact ih (wf_write h a v) (a + 1)

/-- The addresses a sequence's writing leaves listed: the old ones and those of the sequence. -/
theorem mem_writeSeq {m : Memory} {a : Nat} {bs : List Byte} {c : Host.Cell} (h : c ∈ m.writeSeq a bs) :
    c ∈ m ∨ (a ≤ c.1 ∧ c.1 < a + bs.length) := by
  induction bs generalizing m a with
  | nil => exact .inl h
  | cons v bs ih =>
    rcases ih h with h | h
    · rcases mem_write h with h | rfl
      · exact .inl h
      · right; simp
    · right; simp only [List.length_cons]; omega

/-- The memory right after reset is canonical. -/
theorem reset_mem_wf : State.reset.mem.wf := List.Pairwise.nil

end Sys2Proof.Laws
end

