-- ==== Sys2Proof/Laws/Ops.lean ====
section
/-! SUPPORT. One law for each shared operation that says once what it can do: the common checks of a command, delivering
a result, a bus read, a bus write, and the two agents' steps. -/

namespace Sys2Proof.Laws

open Sys2Proof.Machine
open Host (Outcome)

/-- What the input check reads: exactly the sequence `p` of `InputIs`. -/
theorem input_eq_some {s : State} {p : List Byte} : input s = some p ↔ InputIs s p := readSeq_eq_some

/-- The input check fails exactly when a byte below IN_LEN is unwritten (R63). -/
theorem input_eq_none {s : State} : input s = none ↔ ∃ i, i < s.inLen.toNat ∧ written s i = false := by
  simp only [input, readSeq_eq_none, written, inByte]
  refine exists_congr fun i => and_congr_right fun _ => ?_
  cases Memory.read s.mem (Config.inBase + i) <;> simp

/-- The common checks, once and for all (R62): one of three things happens. -/
theorem withInput_cases {onBad : State → State} {body : List Byte → State → State} {s : State} :
    (512 < s.inLen.toNat ∧ withInput onBad body s = .next (complete .badLen (onBad s))) ∨
    (s.inLen.toNat ≤ 512 ∧ (∃ i, i < s.inLen.toNat ∧ written s i = false) ∧
      withInput onBad body s = .fault .uninitInput) ∨
    (∃ p, p.length ≤ 512 ∧ InputIs s p ∧ withInput onBad body s = .next (body p s)) := by
  unfold withInput
  by_cases h : 512 < s.inLen.toNat
  · exact .inl ⟨h, by rw [if_pos (by simpa [Config.bufSize] using h)]⟩
  · rw [if_neg (by simpa [Config.bufSize] using h)]
    cases hin : input s with
    | none => exact .inr (.inl ⟨by omega, input_eq_none.mp hin, rfl⟩)
    | some p =>
      have hp := input_eq_some.mp hin
      exact .inr (.inr ⟨p, by have := hp.1; omega, hp, rfl⟩)

/-- On an input that is wholly written and not over-long, a command's own rule runs. -/
theorem withInput_eq {onBad : State → State} {body : List Byte → State → State} {s : State} {p : List Byte}
    (hp : InputIs s p) (hl : p.length ≤ 512) : withInput onBad body s = .next (body p s) := by
  unfold withInput
  have := hp.1
  rw [if_neg (by simp only [Config.bufSize]; omega), input_eq_some.mpr hp]

/-- An over-long IN_LEN completes with ERR_BADLEN before any input byte is looked at (R62). -/
theorem withInput_badLen {onBad : State → State} {body : List Byte → State → State} {s : State}
    (h : 512 < s.inLen.toNat) : withInput onBad body s = .next (complete .badLen (onBad s)) := by
  unfold withInput
  rw [if_pos (by simpa [Config.bufSize] using h)]

/-- An unwritten input byte is the model fault UNINIT_INPUT (R63). -/
theorem withInput_uninit {onBad : State → State} {body : List Byte → State → State} {s : State}
    (h : s.inLen.toNat ≤ 512) (hu : ∃ i, i < s.inLen.toNat ∧ written s i = false) :
    withInput onBad body s = .fault .uninitInput := by
  unfold withInput
  rw [if_neg (by simp only [Config.bufSize]; omega), input_eq_none.mpr hu]

@[simp] theorem deliver_error (c : ErrorCode) (s : State) : deliver (.error c) s = complete c s := rfl

theorem deliver_ok (out : List Byte) (s : State) :
    deliver (.ok out) s =
      complete .ok { s with mem := s.mem.writeSeq Config.outBase out, outLen := BitVec.ofNat 10 out.length } := rfl

@[simp] theorem errFlag_ok : errFlag .ok = false := rfl

theorem errFlag_eq_true {c : ErrorCode} : errFlag c = true ↔ c.toByte ≠ 0x00 := by
  simp [errFlag]

/-- Every completion ends as R61 says. -/
theorem completedWith_complete (c : ErrorCode) (s : State) : CompletedWith (complete c s) c.toByte := by
  simp [CompletedWith, errFlag_eq_true]

theorem commandFrame_complete (c : ErrorCode) (s : State) : CommandFrame s (complete c s) := by
  simp [CommandFrame]

/-- A delivered result ends as R61 says, with code OK. -/
theorem completedWith_deliver_ok (out : List Byte) (s : State) : CompletedWith (deliver (.ok out) s) 0x00 := by
  rw [deliver_ok]; exact completedWith_complete .ok _

theorem commandFrame_deliver (r : Except ErrorCode (List Byte)) (s : State) : CommandFrame s (deliver r s) := by
  cases r <;> simp [CommandFrame, deliver]

@[simp] theorem deliver_key (r : Except ErrorCode (List Byte)) (s : State) : (deliver r s).key = s.key := by
  cases r <;> rfl

@[simp] theorem deliver_keyValid (r : Except ErrorCode (List Byte)) (s : State) :
    (deliver r s).keyValid = s.keyValid := by
  cases r <;> rfl

/-- A delivered result is readable in OUT_BUF (R31). -/
theorem outputIs_deliver {out : List Byte} (h : out.length ≤ 512) (s : State) :
    OutputIs (deliver (.ok out) s) out := by
  rw [deliver_ok]
  refine ⟨?_, fun i hi => ?_⟩
  · simp only [complete_outLen, BitVec.toNat_ofNat]; omega
  · simp only [outByte, complete_mem, read_writeSeq]
    rw [if_pos (by omega), show Config.outBase + i - Config.outBase = i by omega]

/-- Delivering a result writes OUT_BUF from `OUT[0]` on and nothing else of memory. -/
theorem memoryUnchangedOutside_deliver (out : List Byte) (s : State) :
    MemoryUnchangedOutside s (deliver (.ok out) s) 0x400 out.length := by
  intro a ha
  rw [deliver_ok]
  simp only [complete_mem, read_writeSeq, Config.outBase]
  rw [if_neg (by omega)]

/-- A host write, once and for all (R93): it stores to one place, starts a command, or is a model fault. -/
theorem busWrite_cases {s t : State} {a : BusAddr} {v : Byte} (h : busWrite s a v = .ok t) :
    s.busy = false ∧
    ((locate a = .cmd ∧ t = startCommand v s) ∨
     (locate a = .inLenLo ∧ t = { s with inLen := withLenLo s.inLen v }) ∨
     (locate a = .inLenHi ∧ t = { s with inLen := withLenHi s.inLen v }) ∨
     (∃ i, locate a = .inBuf i ∧ t = { s with mem := s.mem.write (Config.inBase + i) v })) := by
  unfold busWrite at h
  cases hb : s.busy with
  | true => simp [hb] at h
  | false =>
    refine ⟨rfl, ?_⟩
    rw [hb] at h
    cases hl : locate a <;> simp only [hl, Bool.false_eq_true, if_false, Except.ok.injEq, reduceCtorEq] at h
    · exact .inl ⟨rfl, h.symm⟩
    · exact .inr (.inl ⟨rfl, h.symm⟩)
    · exact .inr (.inr (.inl ⟨rfl, h.symm⟩))
    · exact .inr (.inr (.inr ⟨_, rfl, h.symm⟩))

/-- The register addresses name the registers of R22. -/
theorem locate_register {a : BusAddr} (h : a.toNat < 8) : locate a = registerAt a.toNat := if_pos h

/-- An IN_BUF address names the byte 0x200 below it (R40). -/
theorem locate_inBuf {a : BusAddr} (h1 : 0x200 ≤ a.toNat) (h2 : a.toNat < 0x400) :
    locate a = .inBuf (a.toNat - 0x200) := by
  unfold locate
  rw [if_neg (by omega), if_neg (by omega), if_pos h2]

/-- An OUT_BUF address names the byte 0x400 below it (R40). -/
theorem locate_outBuf {a : BusAddr} (h1 : 0x400 ≤ a.toNat) (h2 : a.toNat < 0x600) :
    locate a = .outBuf (a.toNat - 0x400) := by
  unfold locate
  rw [if_neg (by omega), if_neg (by omega), if_neg (by omega), if_pos h2]

/-- The reserved addresses of R41. -/
theorem locate_reserved {a : BusAddr} (h : (0x008 ≤ a.toNat ∧ a.toNat < 0x200) ∨ 0x600 ≤ a.toNat) :
    locate a = .reserved := by
  unfold locate
  rcases h with ⟨h1, h2⟩ | h
  · rw [if_neg (by omega), if_pos h2]
  · rw [if_neg (by omega), if_neg (by omega), if_neg (by omega), if_neg (by omega)]

/-- The address map once and for all (R40): every address lies in one of its five ranges. -/
theorem locate_cases (a : BusAddr) :
    (a.toNat < 8 ∧ locate a = registerAt a.toNat) ∨
    (0x200 ≤ a.toNat ∧ a.toNat < 0x400 ∧ locate a = .inBuf (a.toNat - 0x200)) ∨
    (0x400 ≤ a.toNat ∧ a.toNat < 0x600 ∧ locate a = .outBuf (a.toNat - 0x400)) ∨
    (((0x008 ≤ a.toNat ∧ a.toNat < 0x200) ∨ 0x600 ≤ a.toNat) ∧ locate a = .reserved) := by
  by_cases h0 : a.toNat < 8
  · exact .inl ⟨h0, locate_register h0⟩
  by_cases h1 : 0x200 ≤ a.toNat ∧ a.toNat < 0x400
  · exact .inr (.inl ⟨h1.1, h1.2, locate_inBuf h1.1 h1.2⟩)
  by_cases h2 : 0x400 ≤ a.toNat ∧ a.toNat < 0x600
  · exact .inr (.inr (.inl ⟨h2.1, h2.2, locate_outBuf h2.1 h2.2⟩))
  · have h : (0x008 ≤ a.toNat ∧ a.toNat < 0x200) ∨ 0x600 ≤ a.toNat := by omega
    exact .inr (.inr (.inr ⟨h, locate_reserved h⟩))

/-- Only a register has a register's location, and each register has its own (R22). -/
theorem registerAt_ne_buf (n i : Nat) : registerAt n ≠ .inBuf i ∧ registerAt n ≠ .outBuf i := by
  unfold registerAt
  split <;> simp

/-- A location is a byte of IN_BUF exactly at that byte's address (R40). -/
theorem locate_eq_inBuf {a : BusAddr} {i : Nat} :
    locate a = .inBuf i ↔ a.toNat = 0x200 + i ∧ i < 512 := by
  rcases locate_cases a with ⟨h, hl⟩ | ⟨h1, h2, hl⟩ | ⟨h1, h2, hl⟩ | ⟨h, hl⟩ <;> rw [hl]
  · exact iff_of_false (registerAt_ne_buf _ _).1 (by omega)
  · simp only [Location.inBuf.injEq]; omega
  · exact iff_of_false (by simp) (by omega)
  · exact iff_of_false (by simp) (by omega)

/-- Each register location is one address only (R22). -/
theorem locate_eq_register {a : BusAddr} {n : Nat} (hn : n < 8) : locate a = registerAt n ↔ a.toNat = n := by
  constructor
  · intro h
    rcases locate_cases a with ⟨h0, hl⟩ | ⟨_, _, hl⟩ | ⟨_, _, hl⟩ | ⟨_, hl⟩ <;> rw [hl] at h
    · revert h
      interval_cases a.toNat <;> interval_cases n <;> simp [registerAt]
    all_goals interval_cases n <;> cases h
  · rintro rfl; exact locate_register hn

/-- The location CMD is address 0x000 only (R45: the one location with a side effect). -/
theorem locate_eq_cmd {a : BusAddr} : locate a = .cmd ↔ a = 0x000 :=
  (locate_eq_register (n := 0) (by decide)).trans (BitVec.toNat_inj (y := 0x000))

/-- The location STATUS is address 0x001 only. -/
theorem locate_eq_status {a : BusAddr} : locate a = .status ↔ a = 0x001 :=
  (locate_eq_register (n := 1) (by decide)).trans (BitVec.toNat_inj (y := 0x001))

/-- The location IN_LEN_LO is address 0x004 only. -/
theorem locate_eq_inLenLo {a : BusAddr} : locate a = .inLenLo ↔ a = 0x004 :=
  (locate_eq_register (n := 4) (by decide)).trans (BitVec.toNat_inj (y := 0x004))

/-- The location IN_LEN_HI is address 0x005 only. -/
theorem locate_eq_inLenHi {a : BusAddr} : locate a = .inLenHi ↔ a = 0x005 :=
  (locate_eq_register (n := 5) (by decide)).trans (BitVec.toNat_inj (y := 0x005))

theorem exec_hostWr {a : BusAddr} {v : Byte} {s t : State} :
    exec (.hostWr a v) s = .next t ↔ busWrite s a v = .ok t := by
  simp only [exec, execHostWr]
  cases busWrite s a v <;> simp

theorem exec_hostRd {a : BusAddr} {s t : State} :
    exec (.hostRd a) s = .next t ↔ ∃ v, busRead s a = .ok v ∧ t = returnByte v s := by
  simp only [exec, execHostRd]
  cases busRead s a <;> simp [eq_comm]

/-- The write of any byte to CMD while no command is pending starts a command (R60). -/
theorem exec_writeCmd {s : State} (hb : s.busy = false) (v : Byte) :
    exec (.hostWr 0x000 v) s = .next (startCommand v s) := by
  have hl : locate 0x000 = .cmd := by decide
  simp only [exec, execHostWr, busWrite, hb, hl, Bool.false_eq_true, if_false]

/-- While a command is pending every host write is BUSY_ACCESS (R96). -/
theorem exec_hostWr_busy {s : State} (hb : s.busy = true) (a : BusAddr) (v : Byte) :
    exec (.hostWr a v) s = .fault .busyAccess := by
  simp only [exec, execHostWr, busWrite, hb, if_true]

/-- A host write to IN_LEN_LO (R93). -/
theorem exec_writeLenLo {s : State} (hb : s.busy = false) (v : Byte) :
    exec (.hostWr 0x004 v) s = .next { s with inLen := withLenLo s.inLen v } := by
  have hl : locate 0x004 = .inLenLo := by decide
  simp only [exec, execHostWr, busWrite, hb, hl, Bool.false_eq_true, if_false]

/-- A host write to IN_LEN_HI (R93). -/
theorem exec_writeLenHi {s : State} (hb : s.busy = false) (v : Byte) :
    exec (.hostWr 0x005 v) s = .next { s with inLen := withLenHi s.inLen v } := by
  have hl : locate 0x005 = .inLenHi := by decide
  simp only [exec, execHostWr, busWrite, hb, hl, Bool.false_eq_true, if_false]

theorem toNat_bufAddr {base i : Nat} (h : base + i < 2048) : (BitVec.ofNat 11 (base + i)).toNat = base + i := by
  rw [BitVec.toNat_ofNat]
  omega

theorem locate_in {i : Nat} (h : i < 512) : locate (BitVec.ofNat 11 (0x200 + i)) = .inBuf i := by
  rw [locate_eq_inBuf]
  exact ⟨toNat_bufAddr (by omega), h⟩

theorem locate_out {i : Nat} (h : i < 512) : locate (BitVec.ofNat 11 (0x400 + i)) = .outBuf i := by
  have ht : (BitVec.ofNat 11 (0x400 + i)).toNat = 0x400 + i := toNat_bufAddr (by omega)
  rw [locate_outBuf (by omega) (by omega), ht, Nat.add_sub_cancel_left]

/-- A host write to `IN[i]` (R93). -/
theorem exec_writeIn {s : State} (hb : s.busy = false) {i : Nat} (h : i < 512) (v : Byte) :
    exec (.hostWr (BitVec.ofNat 11 (0x200 + i)) v) s = .next { s with mem := s.mem.write (0x200 + i) v } := by
  simp only [exec, execHostWr, busWrite, hb, locate_in h, Bool.false_eq_true, if_false, Config.inBase]

/-- A host read while no command is pending, by the location it names (R94). -/
theorem busRead_idle {s : State} (hb : s.busy = false) (a : BusAddr) :
    busRead s a =
      match locate a with
      | .cmd => .ok s.cmdLast
      | .status => .ok (statusByte s)
      | .errcode => .ok s.errCode
      | .key => .ok s.key
      | .inLenLo => .ok (lenLo s.inLen)
      | .inLenHi => .ok (lenHi s.inLen)
      | .outLenLo => .ok (lenLo s.outLen)
      | .outLenHi => .ok (lenHi s.outLen)
      | .inBuf i => match inByte s i with | some b => .ok b | none => .error .readUnwritten
      | .outBuf i =>
        if i < s.outLen.toNat then match outByte s i with | some b => .ok b | none => .error .readStale
        else .error .readStale
      | .reserved => .error .reservedAccess := by
  unfold busRead
  exact (if_neg (by simp [hb])).trans (by cases locate a <;> rfl)

/-- A host read of `OUT[i]` below OUT_LEN (R94). -/
theorem exec_readOut {s : State} (hb : s.busy = false) {i : Nat} (h : i < 512) (hl : i < s.outLen.toNat) {v : Byte}
    (hv : outByte s i = some v) : exec (.hostRd (BitVec.ofNat 11 (0x400 + i))) s = .next (returnByte v s) := by
  simp only [exec, execHostRd, busRead_idle hb, locate_out h, hl, hv, if_true]

/-- A read of STATUS is always possible and returns the flags (R94, R96). -/
theorem exec_readStatus (s : State) : exec (.hostRd statusAddr) s = .next (returnByte (statusByte s) s) := by
  refine exec_hostRd.mpr ⟨statusByte s, ?_, rfl⟩
  have : locate statusAddr = .status := by decide
  simp [busRead, this]

/-- Bit 0 of STATUS is BUSY (R22). -/
theorem statusByte_bit0 (s : State) : (statusByte s).getLsbD 0 = s.busy := by
  simp only [statusByte]
  cases s.busy <;> cases s.done <;> cases s.err <;> cases s.keyValid <;> decide

@[simp] theorem toNat_lenLo (l : Len) : (lenLo l).toNat = l.toNat % 256 := by
  simp [lenLo, BitVec.extractLsb'_toNat]

@[simp] theorem toNat_lenHi (l : Len) : (lenHi l).toNat = l.toNat / 256 := by
  have := l.isLt
  simp only [lenHi, BitVec.toNat_setWidth, BitVec.extractLsb'_toNat, Nat.shiftRight_eq_div_pow]
  omega

@[simp] theorem toNat_withLenLo (l : Len) (v : Byte) : (withLenLo l v).toNat = l.toNat / 256 * 256 + v.toNat := by
  have h1 := l.isLt
  have h2 := v.isLt
  have h := BitVec.toNat_append (l.extractLsb' 8 2) v
  rw [Nat.shiftLeft_eq, Nat.mul_comm, ← Nat.two_pow_add_eq_or_of_lt h2] at h
  refine h.trans ?_
  rw [BitVec.extractLsb'_toNat, Nat.shiftRight_eq_div_pow]
  omega

@[simp] theorem toNat_withLenHi (l : Len) (v : Byte) :
    (withLenHi l v).toNat = v.toNat % 4 * 256 + l.toNat % 256 := by
  have h2 : (l.extractLsb' 0 8).toNat < 2 ^ 8 := (l.extractLsb' 0 8).isLt
  have h := BitVec.toNat_append (v.extractLsb' 0 2) (l.extractLsb' 0 8)
  rw [Nat.shiftLeft_eq, Nat.mul_comm, ← Nat.two_pow_add_eq_or_of_lt h2] at h
  refine h.trans ?_
  rw [BitVec.extractLsb'_toNat, BitVec.extractLsb'_toNat, Nat.shiftRight_eq_div_pow, Nat.shiftRight_eq_div_pow]
  omega

/-- What a host write may change, whichever address it names: nothing but these fields. -/
theorem hostWr_frame {a : BusAddr} {v : Byte} {s t : State} (h : exec (.hostWr a v) s = .next t) :
    t.key = s.key ∧ t.keyValid = s.keyValid ∧ t.faultRecord = s.faultRecord ∧ t.program = s.program ∧
      t.hostReads = s.hostReads := by
  obtain ⟨-, ⟨-, rfl⟩ | ⟨-, rfl⟩ | ⟨-, rfl⟩ | ⟨_, -, rfl⟩⟩ := busWrite_cases (exec_hostWr.mp h) <;> simp

end Sys2Proof.Laws
end

