-- ==== Sys2Proof/Laws/Commands.lean ====
section
/-! SUPPORT. What each command computes from its input, case by case, and once and for all what a command's completion
step can do. -/

namespace Sys2Proof.Laws

open Sys2Proof.Machine
open Host (Outcome)

/-- A payload of at most 254 bytes is framed (R70). -/
theorem frameBytes_ok {p : List Byte} (h : p.length ≤ 254) :
    frameBytes p = .ok ([0x86, BitVec.ofNat 8 (p.length + 1)] ++ p ++ [fold p]) :=
  if_neg (by simp only [Config.maxPayload]; omega)

/-- A longer payload is refused (R71). -/
theorem frameBytes_long {p : List Byte} (h : 254 < p.length) : frameBytes p = .error .encoding :=
  if_pos (by simpa [Config.maxPayload] using h)

/-- A reply without the header byte is refused first (R76). -/
theorem unframeBytes_header {r : List Byte} (h : r[0]? ≠ some 0xAA) : unframeBytes r = .error .header :=
  if_pos h

/-- A reply with a good header and no length byte is too short (R77). -/
theorem unframeBytes_noLength {r : List Byte} (h : r[0]? = some 0xAA) (h1 : r[1]? = none) :
    unframeBytes r = .error .short := by
  unfold unframeBytes
  rw [if_neg (by simpa [Config.hdrIn] using h), h1]

/-- With a good header and length byte `n`, what remains are the length and checksum checks (R77, R78). -/
theorem unframeBytes_length {r : List Byte} {n : Byte} (h : r[0]? = some 0xAA) (h1 : r[1]? = some n) :
    unframeBytes r =
      if r.length < n.toNat + 2 then .error .short
      else if r[n.toNat + 1]? ≠ some (fold (slice r 2 (n.toNat + 1))) then .error .checksum
      else .ok (slice r 2 (n.toNat + 1)) := by
  unfold unframeBytes
  rw [if_neg (by simpa [Config.hdrIn] using h), h1]

/-- A refused reply has one of three codes, none of them OK (R75). -/
theorem unframeBytes_error {r : List Byte} {e : ErrorCode} (h : unframeBytes r = .error e) :
    e = .header ∨ e = .short ∨ e = .checksum := by
  unfold unframeBytes at h
  split at h
  · cases h; simp
  · split at h
    · cases h; simp
    · dsimp only at h
      split at h
      · cases h; simp
      · split at h <;> cases h
        simp

/-- A payload is at most 254 bytes: the length byte is at most 255 (R29). -/
theorem unframeBytes_length_le {r q : List Byte} (h : unframeBytes r = .ok q) : q.length ≤ 254 := by
  unfold unframeBytes at h
  split at h
  · cases h
  · split at h
    · cases h
    · next len _ =>
      dsimp only at h
      split at h
      · cases h
      · split at h
        · cases h
        · cases h
          have := len.isLt
          simp only [slice, List.length_drop, List.length_take]
          omega

/-- A frame is at most 257 bytes (R57). -/
theorem frameBytes_length_le {p f : List Byte} (h : frameBytes p = .ok f) : f.length ≤ 257 := by
  unfold frameBytes at h
  split at h
  · cases h
  · next hp =>
    cases h
    simp only [Config.maxPayload] at hp
    simp only [List.length_append, List.length_cons, List.length_nil]
    omega

/-- An accepted reply: the payload, whatever follows the checksum (R75, R79). -/
theorem unframeBytes_frame {q tail : List Byte} (h : q.length ≤ 254) :
    unframeBytes ([0xAA, BitVec.ofNat 8 (q.length + 1)] ++ q ++ [fold q] ++ tail) = .ok q := by
  have hn : (BitVec.ofNat 8 (q.length + 1)).toNat = q.length + 1 := by
    rw [BitVec.toNat_ofNat]; omega
  have hs : slice ([0xAA, BitVec.ofNat 8 (q.length + 1)] ++ q ++ [fold q] ++ tail) 2 (q.length + 1 + 1) = q := by
    simp [slice]
  rw [unframeBytes_length (n := BitVec.ofNat 8 (q.length + 1)) (by simp) (by simp), hn, hs]
  rw [if_neg (by simp only [List.length_append, List.length_cons, List.length_nil]; omega), if_neg]
  simp

/-- The input of a state is one sequence. -/
theorem inputIs_unique {s : State} {x y : List Byte} (h : InputIs s x) (h' : InputIs s y) : x = y :=
  Option.some.inj ((input_eq_some.mpr h).symm.trans (input_eq_some.mpr h'))

/-- The result of a state is one sequence. -/
theorem outputIs_unique {t : State} {x y : List Byte} (h : OutputIs t x) (h' : OutputIs t y) : x = y := by
  apply List.ext_getElem?
  intro i
  have hl : x.length = y.length := h.1.symm.trans h'.1
  by_cases hi : i < x.length
  · rw [← h.2 i hi, h'.2 i (hl ▸ hi)]
  · rw [List.getElem?_eq_none (by omega), List.getElem?_eq_none (by omega)]

/-- A command's own rule on its input, after the common checks. -/
def commandRule : Instr → List Byte → State → State
  | .frame, p, s => deliver (frameBytes p) s
  | .unframe, p, s => deliver (unframeBytes p) s
  | .loadkey, p, s => loadKeyFrom p s
  | .keyxor, p, s => xorWithKey p s
  | .hostWr _ _, _, s => s
  | .hostRd _, _, s => s

/-- What a command leaves after ERR_BADLEN: LOADKEY also clears KEY_VALID (R62). -/
def badLenState (c : Instr) (s : State) : State :=
  complete .badLen (if c = .loadkey then dropKey s else s)

/-- A command's completion step is the common checks before its own rule (R62). -/
theorem exec_command {c : Instr} (hc : IsCommand c) (s : State) :
    exec c s = withInput (fun s => if c = .loadkey then dropKey s else s) (commandRule c) s := by
  rcases hc with rfl | rfl | rfl | rfl <;> rfl

/-- A command's completion step, once and for all (R62): ERR_BADLEN, the model fault UNINIT_INPUT, or its own rule. -/
theorem command_cases {c : Instr} (hc : IsCommand c) (s : State) :
    (512 < s.inLen.toNat ∧ exec c s = .next (badLenState c s)) ∨
    (s.inLen.toNat ≤ 512 ∧ (∃ i, i < s.inLen.toNat ∧ written s i = false) ∧ exec c s = .fault .uninitInput) ∨
    (∃ p, p.length ≤ 512 ∧ InputIs s p ∧ exec c s = .next (commandRule c p s)) := by
  rw [exec_command hc]
  exact withInput_cases

/-- On a written input that is not over-long, a command's own rule runs. -/
theorem exec_command_eq {c : Instr} (hc : IsCommand c) {s : State} {p : List Byte} (hp : InputIs s p)
    (hl : p.length ≤ 512) : exec c s = .next (commandRule c p s) := by
  rw [exec_command hc]
  exact withInput_eq hp hl

/-- LOADKEY's own rule, both ways (R85, R86). -/
theorem loadKeyFrom_cases (info : List Byte) (s : State) :
    (info.length < 5 ∧ loadKeyFrom info s = complete .infoShort (dropKey s)) ∨
    (∃ k, info[4]? = some k ∧ loadKeyFrom info s = complete .ok { s with key := k, keyValid := true }) := by
  unfold loadKeyFrom
  by_cases h : info.length < 5
  · exact .inl ⟨h, if_pos (by simpa [Config.keyMinInfo, Config.keyIndex] using h)⟩
  · rw [if_neg (by simpa [Config.keyMinInfo, Config.keyIndex] using h)]
    cases hk : info[4]? with
    | none => rw [List.getElem?_eq_none_iff] at hk; omega
    | some k =>
      refine .inr ⟨k, rfl, ?_⟩
      simp only [Config.keyIndex, hk]

/-- KEYXOR's own rule, both ways (R88, R89). -/
theorem xorWithKey_cases (b : List Byte) (s : State) :
    (s.keyValid = true ∧ xorWithKey b s = deliver (.ok (xorBytes s.key b)) { s with keyValid := false }) ∨
    (s.keyValid = false ∧ xorWithKey b s = complete .noKey s) := by
  unfold xorWithKey
  cases h : s.keyValid with
  | true => exact .inl ⟨rfl, if_pos rfl⟩
  | false => exact .inr ⟨rfl, if_neg (by simp)⟩

end Sys2Proof.Laws
end

