-- ==== Sys2Proof/Laws/Decode.lean ====
section
/-! SUPPORT. The fields of a transaction word: what each field of a built word is, and that a word is its three fields. -/

namespace Sys2Proof.Laws

/-- Bit by bit, a word built from its three fields (R54). -/
theorem word_getLsbD (x : BitVec 1) (a : BusAddr) (v : Byte) (i : Nat) :
    BitVec.getLsbD (w := 20) ((x ++ a) ++ v) i =
      if i < 8 then v.getLsbD i else if i < 19 then a.getLsbD (i - 8) else x.getLsbD (i - 19) := by
  have h1 := BitVec.getLsbD_append (x := x ++ a) (y := v) (i := i)
  have h2 := BitVec.getLsbD_append (x := x) (y := a) (i := i - 8)
  refine h1.trans ?_
  by_cases h : i < 8
  · simp [h]
  · rw [h2]
    by_cases h' : i < 19
    · simp [h, h', show i - 8 < 11 by omega]
    · simp [h, h', show ¬ i - 8 < 11 by omega, show i - 8 - 11 = i - 19 by omega]

@[simp] theorem writeWord_isWrite (a : BusAddr) (v : Byte) : (writeWord a v).isWrite = true := by
  unfold TransWord.isWrite writeWord
  rw [word_getLsbD]
  rfl

@[simp] theorem writeWord_addr (a : BusAddr) (v : Byte) : (writeWord a v).addr = a := by
  apply BitVec.eq_of_getLsbD_eq
  intro i hi
  unfold TransWord.addr writeWord
  rw [BitVec.getLsbD_extractLsb', word_getLsbD]
  simp [hi, show 8 + i < 19 by omega]

@[simp] theorem writeWord_data (a : BusAddr) (v : Byte) : (writeWord a v).data = v := by
  apply BitVec.eq_of_getLsbD_eq
  intro i hi
  unfold TransWord.data writeWord
  rw [BitVec.getLsbD_extractLsb', word_getLsbD]
  simp [hi]

@[simp] theorem readWord_isWrite (a : BusAddr) : (readWord a).isWrite = false := by
  unfold TransWord.isWrite readWord
  rw [word_getLsbD]
  rfl

@[simp] theorem readWord_addr (a : BusAddr) : (readWord a).addr = a := by
  apply BitVec.eq_of_getLsbD_eq
  intro i hi
  unfold TransWord.addr readWord
  rw [BitVec.getLsbD_extractLsb', word_getLsbD]
  simp [hi, show 8 + i < 19 by omega]

@[simp] theorem readWord_data (a : BusAddr) : (readWord a).data = 0x00 := by
  apply BitVec.eq_of_getLsbD_eq
  intro i hi
  unfold TransWord.data readWord
  rw [BitVec.getLsbD_extractLsb', word_getLsbD]
  simp [hi]

/-- A word is put together from its three fields. -/
theorem word_of_fields (w : TransWord) (x : BitVec 1) (h : x.getLsbD 0 = w.isWrite) :
    ((x ++ w.addr) ++ w.data : BitVec 20) = w := by
  apply BitVec.eq_of_getLsbD_eq
  intro i hi
  rw [word_getLsbD, TransWord.addr, TransWord.data, BitVec.getLsbD_extractLsb', BitVec.getLsbD_extractLsb']
  by_cases h8 : i < 8
  · simp [h8]
  · by_cases h19 : i < 19
    · simp [h8, h19, show i - 8 < 11 by omega, show 8 + (i - 8) = i by omega]
    · have : i = 19 := by omega
      subst this
      simpa [TransWord.isWrite] using h

@[simp] theorem decode_writeWord (a : BusAddr) (v : Byte) :
    decode (.transaction (writeWord a v)) = .ok (.hostWr a v) := by
  simp [decode, decodeTransaction]

@[simp] theorem decode_readWord (a : BusAddr) : decode (.transaction (readWord a)) = .ok (.hostRd a) := by
  simp [decode, decodeTransaction]

/-- What a transaction word can decode to: the write of its fields, or the read of its address (R54). -/
theorem decodeTransaction_cases {w : TransWord} {i : Instr} (h : decode (.transaction w) = .ok i) :
    (i = .hostWr w.addr w.data ∧ w = writeWord w.addr w.data) ∨
    (i = .hostRd w.addr ∧ w = readWord w.addr) := by
  simp only [decode, decodeTransaction] at h
  split at h
  · next hw =>
    cases h
    exact .inl ⟨rfl, (word_of_fields w 1#1 (by simp [hw])).symm⟩
  · next hw =>
    split at h
    · next hd =>
      cases h
      refine .inr ⟨rfl, ?_⟩
      rw [readWord, ← hd]
      exact (word_of_fields w 0#1 (by simpa using hw)).symm
    · cases h

/-- What a command byte can decode to (R51). -/
theorem decodeCommand_cases {b : Byte} {i : Instr} (h : decode (.command b) = .ok i) :
    (b = 0x01 ∧ i = .frame) ∨ (b = 0x02 ∧ i = .unframe) ∨ (b = 0x03 ∧ i = .loadkey) ∨ (b = 0x04 ∧ i = .keyxor) := by
  simp only [decode, decodeCommand] at h
  split_ifs at h with h1 h2 h3 h4 <;> cases h <;> simp [*]

/-- A byte that selects no command is reserved (R52). -/
theorem decodeCommand_reserved {b : Byte} (h : b = 0x00 ∨ 0x05 ≤ b) :
    decode (.command b) = .error .reservedCommand := by
  have : b ≠ 0x01#8 ∧ b ≠ 0x02#8 ∧ b ≠ 0x03#8 ∧ b ≠ 0x04#8 := by
    rcases h with rfl | h
    · decide
    · refine ⟨?_, ?_, ?_, ?_⟩ <;> rintro rfl <;> exact absurd h (by decide)
  simp [decode, decodeCommand, this]

end Sys2Proof.Laws
end

