-- ==== Sys2Proof/Laws/Step.lean ====
section
/-! SUPPORT. Whose turn it is, and once and for all what a step that answers a next state has done. -/

namespace Sys2Proof.Laws

open Sys2Proof.Machine
open Host (Outcome)

/-- The host's turn: no command is pending or its delay has not run out, and the host has an operation to do. -/
theorem step_host {s : State} {op : HostOp} {rest : List HostOp} (hf : s.faultRecord = none)
    (hb : s.busy = false ∨ 0 < s.delay) (hp : s.program = op :: rest) :
    step s = hostOp op (hostTurn rest s) := by
  have : blockMoves s = false := by
    unfold blockMoves
    rw [hp]
    rcases hb with h | h
    · simp [h]
    · simp only [List.isEmpty_cons, Bool.or_false, Bool.and_eq_false_imp]
      intro _
      simp only [beq_eq_false_iff_ne]
      omega
  simp [step, hf, this, hostStep, hp]

/-- The block's turn: a command is pending, and its delay has run out or the host has nothing left to do. -/
theorem step_block {s : State} (hf : s.faultRecord = none) (hb : s.busy = true)
    (hd : s.delay = 0 ∨ s.program = []) : step s = blockStep s := by
  have : blockMoves s = true := by
    unfold blockMoves
    rcases hd with h | h <;> simp [h, hb]
  simp [step, hf, this]

/-- Nobody's turn: no command is pending and the host has nothing to do. -/
theorem step_idle {s : State} (hf : s.faultRecord = none) (hb : s.busy = false) (hp : s.program = []) :
    step s = .next s := by
  have : blockMoves s = false := by simp [blockMoves, hb]
  simp [step, hf, this, hostStep, hp]

/-- A recorded fault: the run is over (R34, R110). -/
theorem step_faulted {s : State} {r : Fault} (hf : s.faultRecord = some r) : step s = .fault r := by
  simp [step, hf]

/-- A step that answers a next state did one of these, and the run had not gone wrong. -/
theorem step_cases {s t : State} (h : step s = .next t) :
    s.faultRecord = none ∧
    ((s.busy = true ∧ (∃ c, decode (.command s.cmdLast) = .ok c ∧ exec c s = .next t)) ∨
     (s.busy = true ∧ (∃ e, decode (.command s.cmdLast) = .error e) ∧ t = complete .badCmd s) ∨
     (s.busy = false ∧ s.program = [] ∧ t = s) ∨
     (∃ op rest, s.program = op :: rest ∧ (s.busy = false ∨ 0 < s.delay) ∧ hostOp op (hostTurn rest s) = .next t)) := by
  unfold step at h
  cases hf : s.faultRecord with
  | some r => simp [hf] at h
  | none =>
    refine ⟨rfl, ?_⟩
    simp only [hf] at h
    cases hm : blockMoves s with
    | true =>
      simp only [hm, if_true] at h
      have hb : s.busy = true := by
        simp only [blockMoves, Bool.and_eq_true] at hm
        exact hm.1
      unfold blockStep at h
      cases hd : decode (.command s.cmdLast) with
      | ok c => simp only [hd] at h; exact .inl ⟨hb, c, rfl, h⟩
      | error e =>
        simp only [hd, Outcome.next.injEq] at h
        exact .inr (.inl ⟨hb, ⟨e, rfl⟩, h.symm⟩)
    | false =>
      simp only [hm, Bool.false_eq_true, if_false] at h
      have hb : s.program ≠ [] → s.busy = false ∨ 0 < s.delay := by
        intro hp
        simp only [blockMoves, Bool.and_eq_false_imp, Bool.or_eq_false_iff, beq_eq_false_iff_ne] at hm
        cases hbu : s.busy with
        | false => exact .inl rfl
        | true => exact .inr (Nat.pos_of_ne_zero (hm hbu).1)
      unfold hostStep at h
      cases hp : s.program with
      | nil =>
        simp only [hp, Outcome.next.injEq] at h
        refine .inr (.inr (.inl ⟨?_, rfl, h.symm⟩))
        cases hbu : s.busy with
        | false => rfl
        | true => simp [blockMoves, hbu, hp] at hm
      | cons op rest =>
        simp only [hp] at h
        exact .inr (.inr (.inr ⟨op, rest, rfl, hb (by simp [hp]), h⟩))

/-- A step that answers a next state is the block's step, with a command pending, or the host's. -/
theorem step_turn {s t : State} (h : step s = .next t) :
    (blockMoves s = true ∧ s.busy = true ∧ blockStep s = .next t) ∨ (blockMoves s = false ∧ hostStep s = .next t) := by
  have hf := (step_cases h).1
  unfold step at h
  simp only [hf] at h
  cases hm : blockMoves s with
  | true =>
    simp only [hm, if_true] at h
    have hb := hm
    simp only [blockMoves, Bool.and_eq_true] at hb
    exact .inl ⟨rfl, hb.1, h⟩
  | false =>
    simp only [hm, Bool.false_eq_true, if_false] at h
    exact .inr ⟨rfl, h⟩

/-- A host operation that answers a next state did one of these. -/
theorem hostOp_cases {op : HostOp} {s t : State} (h : hostOp op s = .next t) :
    (∃ a v, op = .txn (writeWord a v) ∧ exec (.hostWr a v) s = .next t) ∨
    (∃ a, op = .txn (readWord a) ∧ exec (.hostRd a) s = .next t) ∨
    (∃ a v vs, op = .wrLast a ∧ s.hostReads = v :: vs ∧ exec (.hostWr a v) s = .next t) ∨
    (op = .wait ∧ t = pollAgain (returnByte (statusByte s) s)) ∨
    (op = .reset ∧ t = applyReset s) := by
  cases op with
  | txn w =>
    simp only [hostOp] at h
    cases hd : decode (.transaction w) with
    | error e => simp [hd] at h
    | ok i =>
      simp only [hd] at h
      rcases decodeTransaction_cases hd with ⟨rfl, hw⟩ | ⟨rfl, hw⟩
      · exact .inl ⟨_, _, by rw [← hw], h⟩
      · exact .inr (.inl ⟨_, by rw [← hw], h⟩)
  | wrLast a =>
    simp only [hostOp] at h
    cases hr : s.hostReads with
    | nil => simp [hr] at h
    | cons v vs =>
      simp only [hr] at h
      exact .inr (.inr (.inl ⟨a, v, vs, rfl, rfl, h⟩))
  | wait =>
    simp only [hostOp, exec_readStatus, andThen, Outcome.next.injEq] at h
    exact .inr (.inr (.inr (.inl ⟨rfl, h.symm⟩)))
  | reset =>
    simp only [hostOp, Outcome.next.injEq] at h
    exact .inr (.inr (.inr (.inr ⟨rfl, h.symm⟩)))

/-- `wait` touches only the host's side: the byte read, and itself put back while BUSY is 1 (R56). -/
theorem pollAgain_returnByte (v : Byte) (s : State) :
    pollAgain (returnByte v s) =
      { s with
        hostReads := v :: s.hostReads
        program := if v.getLsbD 0 then .wait :: s.program else s.program } := by
  simp only [pollAgain, returnByte]
  split <;> simp_all

/-- One more step of a run of any machine. -/
theorem core_run_succ (M : Host.Core) (n : Nat) (s : M.State) :
    M.run (n + 1) s =
      match M.step s with
      | .next t => M.run n t
      | .fault r => .fault r
      | .refused r => .refused r := rfl

/-- The host's run of this machine is `runSteps`. -/
theorem core_run_eq (n : Nat) (s : State) : Host.Core.run core n s = runSteps n s := by
  induction n generalizing s with
  | zero => rfl
  | succ n ih =>
    refine (core_run_succ core n s).trans ?_
    rw [runSteps, show step s = core.step s from rfl]
    cases core.step s with
    | next t => exact ih t
    | fault r => rfl
    | refused r => rfl

/-- A run of `m + n` steps is a run of `m` and then one of `n`. -/
theorem runSteps_add (m n : Nat) (s : State) : runSteps (m + n) s = andThen (runSteps m s) (runSteps n) := by
  induction m generalizing s with
  | zero => rw [Nat.zero_add]; rfl
  | succ m ih =>
    rw [show m + 1 + n = (m + n) + 1 by omega, runSteps, runSteps]
    cases step s with
    | next t => exact ih t
    | fault r => rfl
    | refused r => rfl

theorem runSteps_one (s : State) : runSteps 1 s = step s := by
  simp only [runSteps]
  cases step s <;> rfl

end Sys2Proof.Laws
end

