-- ==== Sys2Proof/Laws/HostDrive.lean ====
section
/-! SUPPORT. Host operations on the machine: what issuing one operation does, what each pseudo-operation does, and once
and for all what running one command over the bus gives the host. -/

namespace Sys2Proof.Laws

open Sys2Proof.Machine
open Host (Outcome)

@[simp] theorem andThen_next {σ τ φ ρ : Type} (s : σ) (k : σ → Outcome τ φ ρ) : andThen (.next s) k = k s := rfl

theorem andThen_assoc {σ τ υ φ ρ : Type} (o : Outcome σ φ ρ) (k : σ → Outcome τ φ ρ) (l : τ → Outcome υ φ ρ) :
    andThen (andThen o k) l = andThen o (fun s => andThen (k s) l) := by
  cases o <;> rfl

theorem drain_done {s : State} (h : s.program = []) (n : Nat) : drain n s = .next s := by
  cases n <;> simp [drain, h]

theorem drain_step {s t : State} (h : s.program ≠ []) (hs : step s = .next t) (n : Nat) :
    drain (n + 1) s = drain n t := by
  have : s.program.isEmpty = false := by simpa using h
  simp [drain, this, hs]

/-- What the program held before does not matter to an issued operation. -/
theorem issue_program (op : HostOp) (s : State) (p : List HostOp) : issue op { s with program := p } = issue op s := rfl

theorem drive_cons_program (op : HostOp) (ops : List HostOp) (s : State) (p : List HostOp) :
    drive (op :: ops) { s with program := p } = drive (op :: ops) s := rfl

theorem drive_append (a b : List HostOp) (s : State) : drive (a ++ b) s = andThen (drive a s) (drive b) := by
  induction a generalizing s with
  | nil => rfl
  | cons op a ih =>
    simp only [List.cons_append, drive, andThen_assoc]
    congr 1
    funext t
    exact ih t

/-- An operation issued while no command is pending is performed in one step. -/
theorem issue_idle {s t : State} {op : HostOp} (hf : s.faultRecord = none) (hb : s.busy = false)
    (h : hostOp op { s with program := [] } = .next t) (ht : t.program = []) : issue op s = .next t := by
  have hs : step { s with program := [op] } = .next t := by
    rw [step_host (rest := []) (by simpa using hf) (.inl (by simpa using hb)) rfl, ← h]
    simp [hostTurn, hb]
  unfold issue
  rw [drain_step (by simp) hs, drain_done ht]

/-- `wr A, V` while no command is pending. -/
theorem issue_wr {s t : State} {a : BusAddr} {v : Byte} (hf : s.faultRecord = none) (hb : s.busy = false)
    (hp : s.program = []) (h : exec (.hostWr a v) s = .next t) : issue (wr a v) s = .next t := by
  have e : { s with program := [] } = s := by cases s; simp_all
  refine issue_idle hf hb ?_ (by rw [(hostWr_frame h).2.2.2.1, hp])
  simp only [wr, hostOp, decode_writeWord, e, h]

/-- `rd A -> t` while no command is pending. -/
theorem issue_rd {s : State} {a : BusAddr} {v : Byte} (hf : s.faultRecord = none) (hb : s.busy = false)
    (hp : s.program = []) (h : exec (.hostRd a) s = .next (returnByte v s)) :
    issue (rd a) s = .next (returnByte v s) := by
  have e : { s with program := [] } = s := by cases s; simp_all
  refine issue_idle hf hb ?_ (by simpa using hp)
  simp only [rd, hostOp, decode_readWord, e, h]

/-- The block's step completes the command (R61), and touches neither the host's side nor the fault record. -/
theorem blockStep_cases {s t : State} (h : blockStep s = .next t) :
    t.busy = false ∧ t.delay = 0 ∧ t.program = s.program ∧ t.hostReads = s.hostReads ∧
      t.faultRecord = s.faultRecord ∧ t.done = true := by
  unfold blockStep at h
  cases hd : decode (.command s.cmdLast) with
  | error e => simp only [hd] at h; cases h; simp
  | ok c =>
    simp only [hd] at h
    have hc : IsCommand c := by
      rcases decodeCommand_cases hd with ⟨_, rfl⟩ | ⟨_, rfl⟩ | ⟨_, rfl⟩ | ⟨_, rfl⟩ <;> simp [IsCommand]
    rcases command_cases hc s with ⟨_, h'⟩ | ⟨_, _, h'⟩ | ⟨p, _, _, h'⟩ <;> rw [h'] at h <;> cases h
    · unfold badLenState; split <;> simp
    · rcases hc with rfl | rfl | rfl | rfl
      · simp only [commandRule]; cases frameBytes p <;> simp [deliver]
      · simp only [commandRule]; cases unframeBytes p <;> simp [deliver]
      · rcases loadKeyFrom_cases p s with ⟨_, h⟩ | ⟨k, _, h⟩ <;> simp [commandRule, h]
      · rcases xorWithKey_cases p s with ⟨_, h⟩ | ⟨_, h⟩ <;> simp [commandRule, h, deliver]

/-- `wait` while a command is pending: one poll per host step of the delay, the block's step, and the poll that
sees BUSY = 0. -/
theorem issue_wait {s t : State} (hf : s.faultRecord = none) (hb : s.busy = true)
    (h : blockStep { s with program := [.wait], delay := 0, hostReads := List.replicate s.delay (statusByte s) ++ s.hostReads } = .next t) :
    issue .wait s = .next { t with program := [], hostReads := statusByte t :: t.hostReads } := by
  have main : ∀ (d : Nat) (s : State), s.delay = d → s.faultRecord = none → s.busy = true → s.program = [.wait] →
      blockStep { s with delay := 0, hostReads := List.replicate s.delay (statusByte s) ++ s.hostReads } = .next t →
      drain (d + 2) s = .next { t with program := [], hostReads := statusByte t :: t.hostReads } := by
    intro d
    induction d with
    | zero =>
      intro s hd hf hb hp h
      have e : { s with delay := 0, hostReads := List.replicate s.delay (statusByte s) ++ s.hostReads } = s := by
        cases s; simp_all
      rw [e] at h
      obtain ⟨tb, td, tp, tr, tf, _⟩ := blockStep_cases h
      rw [drain_step (by simp [hp]) ((step_block hf hb (.inl hd)).trans h)]
      have h2 : step t = .next { t with program := [], hostReads := statusByte t :: t.hostReads } := by
        rw [step_host (op := .wait) (rest := []) (by rw [tf, hf]) (.inl tb) (by rw [tp, hp])]
        have e2 : statusByte (hostTurn [] t) = statusByte t := rfl
        simp only [hostOp, exec_readStatus, andThen, pollAgain_returnByte, e2, statusByte_bit0, tb]
        simp [hostTurn, tb]
      rw [drain_step (by simp [tp, hp]) h2]
      rfl
    | succ d ih =>
      intro s hd hf hb hp h
      have h2 : step s = .next { s with delay := d, hostReads := statusByte s :: s.hostReads } := by
        rw [step_host (op := .wait) (rest := []) hf (.inr (by omega)) hp]
        have e2 : statusByte (hostTurn [] s) = statusByte s := rfl
        simp only [hostOp, exec_readStatus, andThen, pollAgain_returnByte, e2, statusByte_bit0, hb, if_true]
        simp [hostTurn, hb, hd, hp]
      rw [drain_step (by simp [hp]) h2]
      refine ih { s with delay := d, hostReads := statusByte s :: s.hostReads } rfl hf hb hp ?_
      rw [← h]
      congr 2
      have e2 : statusByte { s with delay := d, hostReads := statusByte s :: s.hostReads } = statusByte s := rfl
      simp only [e2, hd, List.replicate_succ']
      simp
  exact main s.delay { s with program := [.wait] } rfl hf hb rfl h

/-- `load` while no command is pending writes its bytes into IN_BUF (R56). -/
theorem drive_loadAt {s : State} (hf : s.faultRecord = none) (hb : s.busy = false) (hp : s.program = [])
    (bs : List Byte) (i : Nat) (hi : i + bs.length ≤ 512) :
    drive (loadAt (0x200 + i) bs) s = .next { s with mem := s.mem.writeSeq (0x200 + i) bs } := by
  induction bs generalizing s i with
  | nil => rfl
  | cons b bs ih =>
    simp only [List.length_cons] at hi
    simp only [loadAt, drive, issue_wr hf hb hp (exec_writeIn hb (by omega : i < 512) b), andThen_next]
    rw [show 0x200 + i + 1 = 0x200 + (i + 1) by omega, ih (s := { s with mem := s.mem.write (0x200 + i) b }) hf hb hp (i + 1) (by omega)]
    rfl

/-- The two writes of `setlen N` leave IN_LEN = N. -/
theorem withLen_both (l n : Len) : withLenHi (withLenLo l (lenLo n)) (lenHi n) = n := by
  apply BitVec.eq_of_toNat_eq
  have h1 := n.isLt
  simp only [toNat_withLenHi, toNat_withLenLo, toNat_lenLo, toNat_lenHi]
  omega

/-- `setlen` while no command is pending sets IN_LEN (R56). -/
theorem drive_setlen {s : State} (hf : s.faultRecord = none) (hb : s.busy = false) (hp : s.program = []) (n : Len) :
    drive (setlen n) s = .next { s with inLen := n } := by
  simp only [setlen, drive, issue_wr hf hb hp (exec_writeLenLo hb (lenLo n)), andThen_next]
  have h := issue_wr (s := { s with inLen := withLenLo s.inLen (lenLo n) }) hf hb hp
    (exec_writeLenHi (s := { s with inLen := withLenLo s.inLen (lenLo n) }) hb (lenHi n))
  simp only [withLen_both] at h
  rw [h, andThen_next]

/-- `load` and `setlen` make the bytes the input (R56, R30). -/
theorem drive_load_setlen {s : State} (hf : s.faultRecord = none) (hb : s.busy = false) (hp : s.program = [])
    {bs : List Byte} (hl : bs.length ≤ 512) :
    drive (load bs ++ setlen (BitVec.ofNat 10 bs.length)) s =
      .next { s with mem := s.mem.writeSeq 0x200 bs, inLen := BitVec.ofNat 10 bs.length } := by
  rw [drive_append, load, Config.inBase, show (0x200 : Nat) = 0x200 + 0 from rfl,
    drive_loadAt hf hb hp bs 0 (by omega), andThen_next,
    drive_setlen (s := { s with mem := s.mem.writeSeq (0x200 + 0) bs }) hf hb hp]

/-- A memory holding `bs` from 0x200 on and IN_LEN their number are the input `bs`. -/
theorem inputIs_loaded {s : State} {bs : List Byte} (hl : bs.length ≤ 512)
    (hm : ∃ m : Memory, s.mem = m.writeSeq 0x200 bs) (hn : s.inLen = BitVec.ofNat 10 bs.length) : InputIs s bs := by
  obtain ⟨m, hm⟩ := hm
  refine ⟨?_, fun i hi => ?_⟩
  · rw [hn, BitVec.toNat_ofNat]; omega
  · simp only [inByte, hm, read_writeSeq, Config.inBase]
    rw [if_pos (by omega), Nat.add_sub_cancel_left]

/-- `readout`: the reads return the result's bytes in order (R56). -/
theorem drive_readFrom {s : State} (hf : s.faultRecord = none) (hb : s.busy = false) (hp : s.program = [])
    {x : List Byte} (hx : OutputIs s x) (hl : x.length ≤ 512) (k i : Nat) (hi : i + k ≤ x.length) :
    drive (readFrom (0x400 + i) k) s =
      .next { s with hostReads := ((x.drop i).take k).reverse ++ s.hostReads } := by
  induction k generalizing s i with
  | zero => simp [readFrom, drive]
  | succ k ih =>
    have hv : outByte s i = some x[i] := by rw [hx.2 i (by omega)]; exact List.getElem?_eq_getElem (by omega)
    have hr := exec_readOut hb (by omega : i < 512) (by rw [hx.1]; omega) hv
    simp only [readFrom, drive, issue_rd hf hb hp hr, andThen_next]
    have hc : (x.drop i).take (k + 1) = x[i] :: (x.drop (i + 1)).take k := by
      rw [List.drop_eq_getElem_cons (by omega), List.take_succ_cons]
    rw [show 0x400 + i + 1 = 0x400 + (i + 1) by omega, ih (s := returnByte x[i] s) hf hb hp hx (i + 1) (by omega), hc]
    simp [returnByte]

/-- The host's `getlen` reads OUT_LEN (R56). -/
theorem lengthRead_getlen {s : State} (l : Len) (h : s.hostReads = lenHi l :: lenLo l :: r) :
    lengthRead s = l.toNat := by
  simp only [lengthRead, h]
  have h2 : (lenLo l).toNat < 2 ^ 8 := (lenLo l).isLt
  have h1 := l.isLt
  have h := BitVec.toNat_append ((lenHi l).extractLsb' 0 2) (lenLo l)
  rw [Nat.shiftLeft_eq, Nat.mul_comm, ← Nat.two_pow_add_eq_or_of_lt h2] at h
  refine h.trans ?_
  rw [BitVec.extractLsb'_toNat, Nat.shiftRight_eq_div_pow, toNat_lenHi, toNat_lenLo]
  omega

/-- `getlen` while no command is pending reads the two bytes of OUT_LEN (R56). -/
theorem drive_getlen {s : State} (hf : s.faultRecord = none) (hb : s.busy = false) (hp : s.program = []) :
    drive getlen s = .next (returnByte (lenHi s.outLen) (returnByte (lenLo s.outLen) s)) := by
  have h6 : exec (.hostRd 0x006) s = .next (returnByte (lenLo s.outLen) s) :=
    exec_hostRd.mpr ⟨_, by rw [busRead_idle hb]; rfl, rfl⟩
  have h7 : exec (.hostRd 0x007) (returnByte (lenLo s.outLen) s) =
      .next (returnByte (lenHi s.outLen) (returnByte (lenLo s.outLen) s)) :=
    exec_hostRd.mpr ⟨_, by rw [busRead_idle (s := returnByte (lenLo s.outLen) s) hb]; rfl, rfl⟩
  simp only [getlen, drive, issue_rd hf hb hp h6, andThen_next,
    issue_rd (s := returnByte (lenLo s.outLen) s) hf hb hp h7]

/-- Fetching the result of a completed command: its error class, or its result (R134). -/
theorem fetchResult_eq {s : State} (hf : s.faultRecord = none) (hb : s.busy = false) (hp : s.program = []) :
    (s.errCode ≠ 0x00 →
      fetchResult s = .next (.error (errorClass s.errCode), { s with hostReads := s.errCode :: s.hostReads })) ∧
    (s.errCode = 0x00 → ∀ x, OutputIs s x → x.length ≤ 512 →
      ∃ r, fetchResult s = .next (.ok x, { s with hostReads := r })) := by
  have h2 : exec (.hostRd 0x002) s = .next (returnByte s.errCode s) :=
    exec_hostRd.mpr ⟨_, by rw [busRead_idle hb]; rfl, rfl⟩
  have hd : drive [rd 0x002] s = .next (returnByte s.errCode s) := by
    simp only [drive, issue_rd hf hb hp h2, andThen_next]
  unfold fetchResult
  have hh : (returnByte s.errCode s).hostReads.headD 0x00 = s.errCode := rfl
  simp only [hd, andThen_next]
  refine ⟨fun he => ?_, fun he x hx hl => ?_⟩
  · rw [if_pos (by rw [hh]; exact he)]; rfl
  · rw [if_neg (by rw [hh]; exact not_not_intro he)]
    let u : State := returnByte s.errCode s
    have hg : drive getlen u = .next (returnByte (lenHi u.outLen) (returnByte (lenLo u.outLen) u)) :=
      drive_getlen (s := u) hf hb hp
    have hlr : lengthRead (returnByte (lenHi u.outLen) (returnByte (lenLo u.outLen) u)) = x.length :=
      (lengthRead_getlen (r := u.hostReads) u.outLen rfl).trans hx.1
    show ∃ r, andThen (drive getlen u) _ = _
    rw [hg, andThen_next, hlr, readout, Config.outBase, show (0x400 : Nat) = 0x400 + 0 from rfl,
      drive_readFrom (s := returnByte (lenHi u.outLen) (returnByte (lenLo u.outLen) u)) hf hb hp hx hl x.length 0
        (by omega), andThen_next]
    refine ⟨x.reverse ++ (returnByte (lenHi u.outLen) (returnByte (lenLo u.outLen) u)).hostReads, ?_⟩
    simp [bytesRead, returnByte, u]

/-- Running one command over the bus, once and for all: the host gets what the command's own rule gives on the data,
in a state that agrees with the host's on KEY and KEY_VALID; the machine is idle again. -/
theorem runBlock_eq {s : State} (hf : s.faultRecord = none) (hb : s.busy = false) {op : Byte} {c : Instr}
    (hd : decode (.command op) = .ok c) {data : List Byte} (hl : data.length ≤ 512) :
    ∃ s₁ t : State, s₁.key = s.key ∧ s₁.keyValid = s.keyValid ∧ s₁.outLen = 0 ∧
      t.faultRecord = none ∧ t.busy = false ∧ t.key = (commandRule c data s₁).key ∧
      t.keyValid = (commandRule c data s₁).keyValid ∧
      ((commandRule c data s₁).errCode ≠ 0x00 →
        runBlock op data s = .next (.error (errorClass (commandRule c data s₁).errCode), t)) ∧
      ((commandRule c data s₁).errCode = 0x00 → ∀ x, OutputIs (commandRule c data s₁) x → x.length ≤ 512 →
        ∃ r, runBlock op data s = .next (.ok x, { t with hostReads := r })) := by
  have hc : IsCommand c := by
    rcases decodeCommand_cases hd with ⟨_, rfl⟩ | ⟨_, rfl⟩ | ⟨_, rfl⟩ | ⟨_, rfl⟩ <;> simp [IsCommand]
  let a : State :=
    { s with program := [], mem := s.mem.writeSeq 0x200 data, inLen := BitVec.ofNat 10 data.length }
  let b : State := startCommand op a
  let s₁ : State :=
    { b with program := [.wait], delay := 0, hostReads := List.replicate b.delay (statusByte b) ++ b.hostReads }
  have hin : InputIs s₁ data := inputIs_loaded hl ⟨s.mem, rfl⟩ rfl
  have hbs : blockStep s₁ = .next (commandRule c data s₁) := by
    have : s₁.cmdLast = op := rfl
    simp only [blockStep, this, hd]
    exact exec_command_eq hc hin hl
  obtain ⟨tb, td, tp, tr, tf, _⟩ := blockStep_cases hbs
  have hw : issue .wait b = _ := issue_wait (s := b) hf rfl hbs
  let w : State :=
    { commandRule c data s₁ with
      program := [], hostReads := statusByte (commandRule c data s₁) :: (commandRule c data s₁).hostReads }
  have hrun : drive (load data ++ setlen (BitVec.ofNat 10 data.length) ++ run op) s = .next w := by
    have hls : drive (load data ++ setlen (BitVec.ofNat 10 data.length)) { s with program := [] } = .next a :=
      drive_load_setlen (s := { s with program := [] }) hf hb rfl hl
    have hne : ∀ o : List HostOp, o ≠ [] → drive o { s with program := [] } = drive o s := by
      intro o ho
      cases o with
      | nil => exact absurd rfl ho
      | cons op ops => rfl
    rw [← hne _ (by simp [setlen]), drive_append, hls, andThen_next]
    have hcmd : issue (wr 0x000 op) a = .next b := issue_wr (s := a) hf hb rfl (exec_writeCmd (s := a) hb op)
    simp only [run, drive, hcmd, andThen_next]
    rw [hw, andThen_next]
  have hwf : w.faultRecord = none := by
    show (commandRule c data s₁).faultRecord = none
    rw [tf]; exact hf
  obtain ⟨e1, e2⟩ := fetchResult_eq (s := w) hwf tb rfl
  have hrb : runBlock op data s = fetchResult w := by
    unfold runBlock
    rw [if_neg (by simp only [Config.bufSize]; omega), hrun, andThen_next]
  refine ⟨s₁, { w with hostReads := w.errCode :: w.hostReads }, rfl, rfl, rfl, hwf, tb, rfl, rfl,
    fun he => hrb.trans (e1 he), fun he x hx hx' => ?_⟩
  obtain ⟨r, hr⟩ := e2 he x hx hx'
  exact ⟨r, hrb.trans hr⟩

/-- A command whose rule succeeds with result `x` on the data gives the host `x`, whatever the state of the host and the
memory it starts from. -/
theorem runBlock_ok {s : State} (hf : s.faultRecord = none) (hb : s.busy = false) {op : Byte} {c : Instr}
    (hd : decode (.command op) = .ok c) {data x : List Byte} (hl : data.length ≤ 512) (hx : x.length ≤ 512)
    {key : Byte} {valid : Bool}
    (h : ∀ s₁ : State, s₁.key = s.key → s₁.keyValid = s.keyValid → s₁.outLen = 0 →
      (commandRule c data s₁).errCode = 0x00 ∧ OutputIs (commandRule c data s₁) x ∧
        (commandRule c data s₁).key = key ∧ (commandRule c data s₁).keyValid = valid) :
    ∃ t : State, t.faultRecord = none ∧ t.busy = false ∧ t.key = key ∧ t.keyValid = valid ∧
      runBlock op data s = .next (.ok x, t) := by
  obtain ⟨s₁, t, h1, h2, h3, hf', hb', hk, hv, -, hok⟩ := runBlock_eq hf hb hd hl
  obtain ⟨he, ho, hk', hv'⟩ := h s₁ h1 h2 h3
  obtain ⟨r, hr⟩ := hok he x ho hx
  exact ⟨{ t with hostReads := r }, hf', hb', hk.trans hk', hv.trans hv', hr⟩

/-- A command whose rule fails with code `code` on the data gives the host that code's error. -/
theorem runBlock_error {s : State} (hf : s.faultRecord = none) (hb : s.busy = false) {op : Byte} {c : Instr}
    (hd : decode (.command op) = .ok c) {data : List Byte} (hl : data.length ≤ 512) {code key : Byte} {valid : Bool}
    (hc : code ≠ 0x00)
    (h : ∀ s₁ : State, s₁.key = s.key → s₁.keyValid = s.keyValid →
      (commandRule c data s₁).errCode = code ∧ (commandRule c data s₁).key = key ∧
        (commandRule c data s₁).keyValid = valid) :
    ∃ t : State, t.faultRecord = none ∧ t.busy = false ∧ t.key = key ∧ t.keyValid = valid ∧
      runBlock op data s = .next (.error (errorClass code), t) := by
  obtain ⟨s₁, t, h1, h2, -, hf', hb', hk, hv, herr, -⟩ := runBlock_eq hf hb hd hl
  obtain ⟨he, hk', hv'⟩ := h s₁ h1 h2
  subst he
  exact ⟨t, hf', hb', hk.trans hk', hv.trans hv', herr hc⟩

end Sys2Proof.Laws
end

