-- ==== Sys2Proof/Laws/PerInstr.lean ====
section
/-! SUPPORT. Statements made per instruction. Family `TableWord`: an instruction's encoding, as a number of the width
that spec/opcode_table.json gives its row, is a table word the decoder reads back as the instruction. -/

namespace Sys2Proof.Laws

/-- The encoding as a number: bit 0 is the least significant bit, as spec/opcode_table.json numbers its rows. -/
def encodedNat : Encoded → Nat
  | .command b => b.toNat
  | .transaction w => w.toNat

/-- The row's word fits the row's width (8 bits for a command, 20 for a transaction, 30_encoding.md R57) and, given in
that width or in whole bytes, decodes to the instruction. -/
def TableWord.Statement (i : Instr) : Prop :=
  encodedNat (encode i) < 2 ^ (encode i).width ∧
  decodeTableWord (encode i).width (encodedNat (encode i)) = some i ∧
  ((encode i).width = 20 → decodeTableWord 24 (encodedNat (encode i)) = some i)

/-- A transaction word within its width, in 20 bits or in three bytes, is read as that word. -/
theorem decodeTableWord_transaction (w : TransWord) {nbits : Nat} (h : 8 < nbits) (h' : nbits ≤ 24) :
    decodeTableWord nbits w.toNat = (decode (.transaction w)).toOption := by
  have hw := w.isLt
  simp only [decodeTableWord, encodedOfTableWord]
  rw [if_neg (by omega), if_pos h', if_pos hw, BitVec.ofNat_toNat, BitVec.setWidth_eq]

theorem TableWord.frame : TableWord.Statement .frame := by unfold TableWord.Statement; decide

theorem TableWord.unframe : TableWord.Statement .unframe := by unfold TableWord.Statement; decide

theorem TableWord.loadkey : TableWord.Statement .loadkey := by unfold TableWord.Statement; decide

theorem TableWord.keyxor : TableWord.Statement .keyxor := by unfold TableWord.Statement; decide

theorem TableWord.hostWr (a : BusAddr) (v : Byte) : TableWord.Statement (.hostWr a v) := by
  have h : ∀ n, 8 < n → n ≤ 24 → decodeTableWord n (writeWord a v).toNat = some _ := fun n h1 h2 => by
    rw [decodeTableWord_transaction (writeWord a v) h1 h2, decode_writeWord]
    rfl
  exact ⟨(writeWord a v).isLt, h 20 (by decide) (by decide), fun _ => h 24 (by decide) (by decide)⟩

theorem TableWord.hostRd (a : BusAddr) : TableWord.Statement (.hostRd a) := by
  have h : ∀ n, 8 < n → n ≤ 24 → decodeTableWord n (readWord a).toNat = some _ := fun n h1 h2 => by
    rw [decodeTableWord_transaction (readWord a) h1 h2, decode_readWord]
    rfl
  exact ⟨(readWord a).isLt, h 20 (by decide) (by decide), fun _ => h 24 (by decide) (by decide)⟩

end Sys2Proof.Laws
end

