-- ==== Sys2Proof/Tests/Slice0.lean ====
section
/-! SUPPORT. Tests of decoding and of single steps, their expected results taken from the encodings of 30_encoding.md
and the worked examples and tables of 95_test_vectors.md; and for every statement with hypotheses a witness that meets
them, named after it. -/

namespace Sys2Proof.Tests

open Sys2Proof Sys2Proof.Machine Sys2Proof.Laws
open Host (Outcome)

/-! ## Helpers -/

/-- The reset state with `bs` loaded as the input. -/
def loaded (bs : List Byte) : State :=
  { State.reset with mem := Memory.writeSeq [] 0x200 bs, inLen := BitVec.ofNat 10 bs.length }

/-- The same with a valid key. -/
def keyed (k : Byte) (bs : List Byte) : State := { loaded bs with key := k, keyValid := true }

/-- The reset state with the command `b` pending, `d` host steps still to go, and a host that has `p` to do. -/
def pendingWith (b : Byte) (d : Nat) (p : List HostOp) : State :=
  { State.reset with cmdLast := b, busy := true, delay := d, program := p }

/-- The idle reset state with a host that has `p` to do. -/
def todo (p : List HostOp) : State := { State.reset with program := p }

/-- What a completed command shows: ERRCODE, STATUS, OUT_LEN and the first `n` bytes of OUT_BUF. -/
def shown (n : Nat) : Outcome State Fault Refusal → Option (Byte × Byte × Len × List (Option Byte))
  | .next t => some (t.errCode, statusByte t, t.outLen, (List.range n).map (outByte t))
  | _ => none

/-- The key unit after a step. -/
def keyShown : Outcome State Fault Refusal → Option (Byte × Byte × Bool)
  | .next t => some (t.errCode, t.key, t.keyValid)
  | _ => none

/-- The byte the latest read returned. -/
def latestRead : Outcome State Fault Refusal → Option Byte
  | .next t => t.hostReads.head?
  | _ => none

/-- The model fault a step ended in. -/
def faultOf : Outcome State Fault Refusal → Option Fault
  | .fault r => some r
  | _ => none

/-- A loaded state's input is what was loaded. -/
theorem loaded_input {bs : List Byte} (h : bs.length ≤ 512) : InputIs (loaded bs) bs :=
  inputIs_loaded h ⟨[], rfl⟩ rfl

theorem keyed_input {k : Byte} {bs : List Byte} (h : bs.length ≤ 512) : InputIs (keyed k bs) bs :=
  inputIs_loaded h ⟨[], rfl⟩ rfl

/-- `n` copies of a byte. -/
def many (n : Nat) (b : Byte) : List Byte := List.replicate n b

@[simp] theorem many_length (n : Nat) (b : Byte) : (many n b).length = n := List.length_replicate ..

theorem many_getElem? {n i : Nat} (b : Byte) (h : i < n) : (many n b)[i]? = some b := by
  simp [many, h]

/-! ## Decoding: words written out from 30_encoding.md (R51, R54) and from the programs of 95_test_vectors.md -/

theorem test_decode_frame : decodeCommand 0b00000001 = .ok .frame := by decide
theorem test_decode_unframe : decodeCommand 0b00000010 = .ok .unframe := by decide
theorem test_decode_loadkey : decodeCommand 0b00000011 = .ok .loadkey := by decide
theorem test_decode_keyxor : decodeCommand 0b00000100 = .ok .keyxor := by decide
theorem test_decode_reserved : decodeCommand 0b00000000 = .error .reservedCommand ∧
    decodeCommand 0b00000101 = .error .reservedCommand ∧ decodeCommand 0b11111111 = .error .reservedCommand := by decide
/-- `wr 0x200, 0x10` (P1): W 1, A 01000000000, D 00010000. -/
theorem test_decode_hostWr : decodeTransaction 0b10100000000000010000 = .ok (.hostWr 0x200 0x10) := by decide
/-- `rd 0x409 -> r9` (P3): W 0, A 10000001001, D 00000000. -/
theorem test_decode_hostRd : decodeTransaction 0b01000000100100000000 = .ok (.hostRd 0x409) := by decide
theorem test_decode_readWordWithData : decodeTransaction 0b01000000100100000001 = .error .readWordWithData := by decide

/-! ## WellFormed: an ill-formed term for each check, refused -/

theorem test_wellFormed_word : TransWord.wellFormed 0b00000000000000000001 = false ∧
    TransWord.wellFormed 0b10000000000000000001 = true := by decide
theorem test_wellFormed_command : Byte.isCommand 0x00 = false ∧ Byte.isCommand 0x05 = false ∧
    Byte.isCommand 0x01 = true ∧ Byte.isCommand 0x04 = true := by decide

/-! ## One step each -/

/-- Table 2.1, the GetInfo request. -/
theorem test_frame_getInfo : shown 4 (exec .frame (loaded [0x10])) =
    some (0x00, 0x02, 4, [some 0x86, some 0x02, some 0x10, some 0x10]) := by decide
/-- Table 2.1: header bytes in the payload are copied, and the checksum is 0x2C. -/
theorem test_frame_headerBytes : shown 5 (exec .frame (loaded [0x86, 0xAA])) =
    some (0x00, 0x02, 5, [some 0x86, some 0x03, some 0x86, some 0xAA, some 0x2C]) := by decide
/-- Table 2.2, the info reply of S7. -/
theorem test_unframe_info : shown 5 (exec .unframe (loaded [0xAA, 0x06, 0x00, 0x00, 0x00, 0x00, 0x2A, 0x2A])) =
    some (0x00, 0x02, 5, [some 0x00, some 0x00, some 0x00, some 0x00, some 0x2A]) := by decide
/-- S6: ERR_CHECKSUM, STATUS 0x06, OUT_LEN 0. -/
theorem test_unframe_checksum : shown 0 (exec .unframe (loaded [0xAA, 0x02, 0x41, 0x00])) =
    some (0x02, 0x06, 0, []) := by decide
/-- Table 2.3: the byte at index 4, not the last one. -/
theorem test_loadkey_index : keyShown (exec .loadkey (loaded [0x00, 0x01, 0x02, 0x03, 0x04, 0x05])) =
    some (0x00, 0x04, true) := by decide
/-- Table 2.3: a short info keeps KEY and clears KEY_VALID. -/
theorem test_loadkey_short : keyShown (exec .loadkey (keyed 0x2A [0x01, 0x02, 0x03])) =
    some (0x05, 0x2A, false) := by decide
/-- Table 2.4, the burn buffer of S7. -/
theorem test_keyxor_burnBuffer : shown 6 (exec .keyxor (keyed 0x2A [0x11, 0x22, 0x06, 0x1E, 0x51, 0x37])) =
    some (0x00, 0x02, 6, [some 0x3B, some 0x08, some 0x2C, some 0x34, some 0x7B, some 0x1D]) := by decide
/-- Table 2.4: ERR_BADLEN keeps the key. -/
theorem test_keyxor_badLen : keyShown (exec .keyxor { keyed 0x2A [] with inLen := 513 }) =
    some (0x07, 0x2A, true) := by decide
/-- Table 2.5: 0xFF written to IN_LEN_HI reads back as 0x03. -/
theorem test_hostWr_lenHi : latestRead (andThen (exec (.hostWr 0x005 0xFF) State.reset) (exec (.hostRd 0x005))) =
    some 0x03 := by decide
/-- Table 2.6: KEY cannot be written. -/
theorem test_hostWr_key : faultOf (exec (.hostWr 0x003 0x2A) State.reset) = some .writeReadOnly := by decide
/-- Table 2.6: STATUS of a pending command with a valid key. -/
theorem test_hostRd_status : latestRead (exec (.hostRd 0x001) { pendingWith 0x04 0 [] with keyValid := true }) =
    some 0x09 := by decide
/-- Table 2.6 and P5: `OUT[3]` and `OUT[4]` after FRAME of `[10]`. -/
theorem test_hostRd_out : latestRead (andThen (exec .frame (loaded [0x10])) (exec (.hostRd 0x403))) = some 0x10 ∧
    faultOf (andThen (exec .frame (loaded [0x10])) (exec (.hostRd 0x404))) = some .readStale := by decide
/-- Table 2.5: an unwritten input byte. -/
theorem test_uninit : faultOf (step { pendingWith 0x01 0 [] with inLen := 1 }) = some .uninitInput := by decide
/-- Table 2.8. -/
theorem test_checksum16 : checksum16 [] = 0x5115 ∧ checksum16 [0x12] = 0x5115 ∧ checksum16 [0x11, 0x22] = 0x5137 ∧
    checksum16 [0xFF, 0xFF, 0xFF, 0xFF] = 0xFFFF ∧ burnBuffer [] = [0x06, 0x1E, 0x51, 0x15] := by decide

/-! ## Witnesses: concrete states and operands that meet each statement's hypotheses -/

theorem witness_DecodeInvertsEncode : decode (.transaction 0xFFFFF) = .ok (.hostWr 0x7FF 0xFF) ∧
    decode (.command 0x04) = .ok .keyxor := by decide

theorem witness_TransactionWordLayout :
    ((0xFFFFF : TransWord).toNat / 2 ^ 19 = 1 ∧ (0x80000 : TransWord).toNat / 2 ^ 19 = 1) ∧
    ((0x7FF00 : TransWord).toNat / 2 ^ 19 = 0 ∧ (0x7FF00 : TransWord).toNat % 2 ^ 8 = 0) ∧
    ((0x7FFFF : TransWord).toNat / 2 ^ 19 = 0 ∧ (0x00001 : TransWord).toNat % 2 ^ 8 ≠ 0) := by decide

theorem witness_FoldIsXorInAnyOrder : ([0x01, 0x02, 0x04] : List Byte).Perm [0x04, 0x02, 0x01] := by decide

theorem witness_StepRunsHostTransaction :
    ((todo [.txn 0x00100, .wait]).faultRecord = none ∧ (todo [.txn 0x00100, .wait]).busy = false ∧
      decode (.transaction 0x00100) = .ok (.hostRd 0x001)) ∧
    ((pendingWith 0x01 1 [.txn 0x00001]).faultRecord = none ∧ 0 < (pendingWith 0x01 1 [.txn 0x00001]).delay ∧
      decode (.transaction 0x00001) = .error .readWordWithData) := by decide

theorem witness_StepRunsPendingCommand :
    ((pendingWith 0x01 0 [.wait]).busy = true ∧ (pendingWith 0x01 0 [.wait]).delay = 0 ∧
      decode (.command (pendingWith 0x01 0 [.wait]).cmdLast) = .ok .frame) ∧
    ((pendingWith 0x04 3 []).busy = true ∧ (pendingWith 0x04 3 []).program = [] ∧
      decode (.command (pendingWith 0x04 3 []).cmdLast) = .ok .keyxor) := by decide

theorem witness_StepRunsPlacedInstruction :
    (8 ≤ 8 ∧ decodeTableWord 8 0x01 = some .frame) ∧ (8 < 24 ∧ decodeTableWord 24 0xFFFFF = some (.hostWr 0x7FF 0xFF)) ∧
    (8 < 20 ∧ decodeTableWord 20 0x7FF00 = some (.hostRd 0x7FF)) := by decide

theorem witness_StepRunsOtherHostOperations :
    ({ todo [.wrLast 0x200] with hostReads := [0x10] }.hostReads = 0x10 :: [] ∧
      { todo [.wrLast 0x200] with hostReads := [0x10] }.program = .wrLast 0x200 :: []) ∧
    ((todo [.wrLast 0x200]).hostReads = [] ∧ (todo [.wrLast 0x200]).program = .wrLast 0x200 :: []) ∧
    ((pendingWith 0x01 1 [.wait]).program = .wait :: [] ∧ (pendingWith 0x01 1 [.wait]).busy = true ∧
      0 < (pendingWith 0x01 1 [.wait]).delay) ∧
    ((todo [.wait]).program = .wait :: [] ∧ (todo [.wait]).busy = false) ∧
    ((todo []).program = [] ∧ (todo []).busy = false ∧ (todo []).faultRecord = none) := by decide

theorem witness_CommandStartSetsItsState : (loaded [0x10]).busy = false ∧ (pendingWith 0x01 2 []).busy = true := by decide

theorem witness_ReservedByteCompletesWithBadCmd :
    ((0x00 : Byte) = 0x00 ∧ (0x05 : Byte) ≤ 0x05 ∧ (0x05 : Byte) ≤ 0xFF) ∧
    (loaded [0x10]).busy = false ∧ (loaded [0x10]).faultRecord = none := by decide

theorem witness_OverlongInputCompletesWithBadLen :
    IsCommand .loadkey ∧ IsCommand .frame ∧ 512 < { State.reset with inLen := 513 }.inLen.toNat ∧
    512 < { State.reset with inLen := 1023 }.inLen.toNat := by unfold IsCommand; decide

theorem witness_UnwrittenInputFaults :
    ({ State.reset with inLen := 1 }.inLen.toNat ≤ 512 ∧ 0 < { State.reset with inLen := 1 }.inLen.toNat ∧
      written { State.reset with inLen := 1 } 0 = false) ∧
    ({ State.reset with inLen := 512 }.inLen.toNat ≤ 512 ∧ 511 < { State.reset with inLen := 512 }.inLen.toNat ∧
      written { State.reset with inLen := 512 } 511 = false) := by decide

theorem witness_PendingCommandIsCheckedInOrder :
    ((pendingWith 0x05 0 []).faultRecord = none ∧ (pendingWith 0x05 0 []).busy = true ∧
      (pendingWith 0x05 0 []).delay = 0 ∧ 0x05 ≤ (pendingWith 0x05 0 []).cmdLast ∧
      (pendingWith 0x00 0 []).cmdLast = 0x00) ∧
    (0x01 ≤ (pendingWith 0x01 0 []).cmdLast ∧ (pendingWith 0x04 0 []).cmdLast ≤ 0x04) ∧
    512 < { pendingWith 0x01 0 [] with inLen := 513 }.inLen.toNat ∧
    (∃ i, i < { pendingWith 0x04 0 [] with inLen := 512 }.inLen.toNat ∧
      written { pendingWith 0x04 0 [] with inLen := 512 } i = false) ∧
    (∀ i, i < { pendingWith 0x04 0 [] with inLen := 1, mem := [(0x200, 0x10)] }.inLen.toNat →
      written { pendingWith 0x04 0 [] with inLen := 1, mem := [(0x200, 0x10)] } i = true) :=
  ⟨by decide, by decide, by decide, ⟨0, by decide⟩, by decide⟩

theorem witness_FailedCommandWritesNoResult :
    (∃ t, exec .keyxor (loaded [0x11]) = .next t ∧ t.errCode ≠ 0x00) ∧
    (∃ t, exec .loadkey (loaded [0x11]) = .next t ∧ t.errCode ≠ 0x00) :=
  ⟨⟨_, rfl, by decide⟩, ⟨_, rfl, by decide⟩⟩

/-- Two states that differ in an old result byte of OUT_BUF, and in nothing a command reads. -/
theorem witness_CommandIsAFunctionOfItsInputs :
    let s := { keyed 0x2A [0x11] with outLen := 1, mem := [(0x200, 0x11), (0x400, 0x55)] }
    let s' := keyed 0x2A [0x11]
    IsCommand .keyxor ∧ s'.inLen = s.inLen ∧ (∀ i, i < 512 → inByte s' i = inByte s i) ∧ s'.key = s.key ∧
      s'.keyValid = s.keyValid ∧ s'.mem ≠ s.mem ∧ ∃ t, exec .keyxor s = .next t ∧ t.errCode = 0x00 := by
  refine ⟨by simp [IsCommand], rfl, fun i hi => ?_, rfl, rfl, by decide, _, rfl, rfl⟩
  have h : ¬ Config.inBase + i = 0x400 := by simp only [Config.inBase]; omega
  simp [inByte, keyed, loaded, Memory.writeSeq, Memory.write, Memory.read, h]

theorem witness_WaitReachesTheBlocksStep :
    (pendingWith 0x01 0 [.wait]).faultRecord = none ∧ (pendingWith 0x01 0 [.wait]).busy = true ∧
    (pendingWith 0x01 0 [.wait]).program = .wait :: [] ∧ (pendingWith 0x04 3 [.wait]).program = .wait :: [] := by decide

theorem witness_LatencyChangesNoResult :
    (∃ t, runSteps (0 + 2) { pendingWith 0x01 0 [.wait] with delay := 0 } = .next t) ∧
    (∃ t, runSteps (3 + 2) { pendingWith 0x01 0 [.wait] with delay := 3 } = .next t) ∧
    faultOf (runSteps (1 + 2) { pendingWith 0x01 0 [.wait] with delay := 1, inLen := 1 }) = some .uninitInput :=
  ⟨⟨_, rfl⟩, ⟨_, rfl⟩, by decide⟩

theorem witness_FrameWrapsThePayload :
    (InputIs (loaded []) [] ∧ ([] : List Byte).length ≤ 254) ∧
    (InputIs (loaded (many 254 0xFF)) (many 254 0xFF) ∧
      (many 254 0xFF).length ≤ 254) :=
  ⟨⟨loaded_input (by simp), by simp⟩, loaded_input (by simp), by simp⟩

theorem witness_FrameRefusesALongPayload :
    (InputIs (loaded (many 255 0x00)) (many 255 0x00) ∧
      254 < (many 255 0x00).length ∧ (loaded (many 255 0x00)).outLen = 0) ∧
    (InputIs (loaded (many 512 0x00)) (many 512 0x00) ∧
      (many 512 0x00).length ≤ 512) :=
  ⟨⟨loaded_input (by simp), by simp, rfl⟩, loaded_input (by simp), by simp⟩

theorem witness_FrameInvariants :
    InputIs (loaded [0x10]) [0x10] ∧ ∃ t, exec .frame (loaded [0x10]) = .next t ∧ t.errCode = 0x00 :=
  ⟨loaded_input (by simp), _, rfl, rfl⟩

theorem witness_UnframeInvertsFrame :
    InputIs (loaded [0x10]) [0x10] ∧
    (∃ t, exec .frame (loaded [0x10]) = .next t ∧ OutputIs t [0x86, 0x02, 0x10, 0x10]) ∧
    InputIs (loaded [0xAA, 0x02, 0x10, 0x10]) (([0x86, 0x02, 0x10, 0x10] : List Byte).set 0 0xAA) :=
  ⟨loaded_input (by simp), ⟨_, rfl, by unfold OutputIs; decide⟩, loaded_input (by simp)⟩

theorem witness_UnframeStripsTheEnvelope :
    InputIs (loaded [0xAA, 0x02, 0x41, 0x41, 0xFF, 0xFF])
      ([0xAA, BitVec.ofNat 8 (([0x41] : List Byte).length + 1)] ++ [0x41] ++ [fold [0x41]] ++ [0xFF, 0xFF]) ∧
    (let q : List Byte := many 254 0x01
     let tail : List Byte := many 255 0x00
     let r := [0xAA, BitVec.ofNat 8 (q.length + 1)] ++ q ++ [fold q] ++ tail
     InputIs (loaded r) r ∧ q.length ≤ 254 ∧ q.length + tail.length + 3 ≤ 512) :=
  ⟨loaded_input (bs := [0xAA, 0x02, 0x41, 0x41, 0xFF, 0xFF]) (by simp), loaded_input (by simp), by simp, by simp⟩

theorem witness_UnframeChecksTheHeaderFirst :
    (InputIs (loaded []) [] ∧ ([] : List Byte)[0]? ≠ some 0xAA) ∧
    (InputIs (loaded [0x00]) [0x00] ∧ ([0x00] : List Byte)[0]? ≠ some 0xAA) :=
  ⟨⟨loaded_input (by simp), by decide⟩, loaded_input (by simp), by decide⟩

theorem witness_UnframeRefusesAShortReply :
    (InputIs (loaded [0xAA]) [0xAA] ∧ ([0xAA] : List Byte)[0]? = some 0xAA ∧ ([0xAA] : List Byte).length < 2) ∧
    (InputIs (loaded [0xAA, 0x03, 0x01, 0x02]) [0xAA, 0x03, 0x01, 0x02] ∧
      ([0xAA, 0x03, 0x01, 0x02] : List Byte)[1]? = some 0x03 ∧
      ([0xAA, 0x03, 0x01, 0x02] : List Byte).length < (0x03 : Byte).toNat + 2) :=
  ⟨⟨loaded_input (by simp), by decide, by decide⟩, loaded_input (by simp), by decide, by decide⟩

theorem witness_UnframeChecksTheChecksum :
    let r : List Byte := [0xAA, 0x02, 0x41, 0x00]
    InputIs (loaded r) r ∧ r[0]? = some 0xAA ∧ r[1]? = some 0x02 ∧ (0x02 : Byte).toNat + 2 ≤ r.length ∧
      r[(0x02 : Byte).toNat + 1]? ≠ some (fold ((r.take ((0x02 : Byte).toNat + 1)).drop 2)) :=
  ⟨loaded_input (by simp), by decide, by decide, by decide, by decide⟩

theorem witness_UnframeIgnoresTrailingBytes :
    (let r : List Byte := [0xAA, 0x02, 0x41, 0x41, 0xFF]
     InputIs (loaded r) r ∧ r[1]? = some 0x02 ∧ (0x02 : Byte).toNat + 2 < r.length ∧
       InputIs (loaded [0xAA, 0x02, 0x41, 0x41]) (r.take ((0x02 : Byte).toNat + 2))) ∧
    (let s := { loaded [0xAA, 0x02, 0x41, 0x41] with inLen := 512 }
     inByte s 1 = some 0x02 ∧ (0x02 : Byte).toNat + 2 ≤ 4 ∧ 4 < s.inLen.toNat ∧ s.inLen.toNat ≤ 512 ∧
       written s 4 = false ∧ written s 511 = false) :=
  ⟨⟨loaded_input (by simp), by decide, by decide, loaded_input (by simp)⟩, by decide⟩

theorem witness_UnframeAcceptsLengthZero :
    (InputIs (loaded [0xAA, 0x00]) [0xAA, 0x00] ∧
      ∃ t, exec .unframe (loaded [0xAA, 0x00]) = .next t ∧ t.errCode = 0x00) ∧
    InputIs (loaded [0xAA, 0x00, 0x05]) [0xAA, 0x00, 0x05] :=
  ⟨⟨loaded_input (by simp), _, rfl, rfl⟩, loaded_input (by simp)⟩

theorem witness_UnframeWithLengthOne :
    InputIs (loaded [0xAA, 0x01, 0x00]) (0xAA :: 0x01 :: 0x00 :: []) ∧
    InputIs (loaded [0xAA, 0x01, 0x01]) (0xAA :: 0x01 :: 0x01 :: []) ∧
    (InputIs (loaded (0xAA :: 0x01 :: 0x00 :: many 509 0x00)) (0xAA :: 0x01 :: 0x00 :: many 509 0x00) ∧
      (many 509 0x00).length ≤ 509) ∧
    InputIs (loaded [0xAA, 0x00]) [0xAA, 0x00] :=
  ⟨loaded_input (by simp), loaded_input (by simp), ⟨loaded_input (by simp), by simp⟩, loaded_input (by simp)⟩

theorem witness_LoadKeyTakesTheFifthByte :
    (InputIs (loaded [0x00, 0x00, 0x00, 0x00, 0x2A]) [0x00, 0x00, 0x00, 0x00, 0x2A] ∧
      5 ≤ ([0x00, 0x00, 0x00, 0x00, 0x2A] : List Byte).length ∧
      ([0x00, 0x00, 0x00, 0x00, 0x2A] : List Byte)[4]? = some 0x2A) ∧
    (InputIs (loaded (many 512 0x77)) (many 512 0x77) ∧
      (many 512 0x77)[4]? = some 0x77) :=
  ⟨⟨loaded_input (by simp), by decide, by decide⟩, loaded_input (by simp), many_getElem? _ (by decide)⟩

theorem witness_LoadKeyFailureDropsTheKey :
    (InputIs (keyed 0x2A []) [] ∧ ([] : List Byte).length < 5) ∧
    (InputIs (loaded [0x01, 0x02, 0x03, 0x04]) [0x01, 0x02, 0x03, 0x04] ∧
      ([0x01, 0x02, 0x03, 0x04] : List Byte).length < 5) ∧
    512 < { keyed 0x2A [] with inLen := 513 }.inLen.toNat :=
  ⟨⟨by unfold InputIs; decide, by decide⟩, ⟨loaded_input (by simp), by decide⟩, by decide⟩

theorem witness_KeyXorMasksTheBuffer :
    (InputIs (keyed 0x2A []) [] ∧ (keyed 0x2A []).keyValid = true) ∧
    (InputIs (keyed 0x2A (many 512 0x00)) (many 512 0x00) ∧
      (many 512 0x00).length ≤ 512) :=
  ⟨⟨by unfold InputIs; decide, rfl⟩, keyed_input (by simp), by simp⟩

/-- The key becomes valid by LOADKEY, and stops being valid in each of the three ways. -/
theorem witness_KeyIsValidForOneKeyXor :
    (InputIs (loaded [0x11]) [0x11] ∧ (loaded [0x11]).keyValid = false) ∧
    (let s := { loaded [0x00, 0x00, 0x00, 0x00, 0x2A] with cmdLast := 0x03, busy := true }
     s.keyValid = false ∧ keyShown (step s) = some (0x00, 0x2A, true)) ∧
    (let s := { keyed 0x2A [0x11] with cmdLast := 0x04, busy := true }
     s.keyValid = true ∧ keyShown (step s) = some (0x00, 0x2A, false)) ∧
    (let s := { keyed 0x2A [0x11] with cmdLast := 0x03, busy := true }
     s.keyValid = true ∧ keyShown (step s) = some (0x05, 0x2A, false)) ∧
    (let s := { keyed 0x2A [0x11] with program := [.reset] }
     s.keyValid = true ∧ keyShown (step s) = some (0x00, 0x00, false)) :=
  ⟨⟨loaded_input (by simp), rfl⟩, by decide, by decide, by decide, by decide⟩

theorem witness_KeyIsWrittenOnlyByLoadKey :
    (keyShown (step { loaded [0x00, 0x00, 0x00, 0x00, 0x2A] with cmdLast := 0x03, busy := true }) =
      some (0x00, 0x2A, true) ∧ (loaded [0x00, 0x00, 0x00, 0x00, 0x2A]).key ≠ 0x2A) ∧
    (keyShown (step { keyed 0x2A [] with program := [.reset] }) = some (0x00, 0x00, false) ∧
      (keyed 0x2A []).key ≠ 0x00) := by decide

theorem witness_KeyXorIsAnInvolution :
    InputIs (keyed 0x2A [0x11]) [0x11] ∧ (keyed 0x2A [0x11]).keyValid = true ∧
    (∃ t, exec .keyxor (keyed 0x2A [0x11]) = .next t ∧ OutputIs t [0x3B]) ∧
    InputIs (keyed 0x2A [0x3B]) [0x3B] ∧ (keyed 0x2A [0x3B]).key = (keyed 0x2A [0x11]).key :=
  ⟨by unfold InputIs; decide, rfl, ⟨_, rfl, by unfold OutputIs; decide⟩, by unfold InputIs; decide, rfl⟩

theorem witness_HostReadReturnsTheByte :
    let s := { State.reset with outLen := 512, mem := [(0x200, 0x10), (0x3FF, 0x11), (0x400, 0x12), (0x5FF, 0x13)] }
    s.busy = false ∧ inByte s 0 = some 0x10 ∧ inByte s 511 = some 0x11 ∧ outByte s 0 = some 0x12 ∧
      outByte s 511 = some 0x13 ∧ 511 < s.outLen.toNat := by decide

theorem witness_HostWriteStoresItsByte : State.reset.busy = false ∧ 0 < 512 ∧ 511 < 512 := by decide

theorem witness_ReadOnlyLocationsRefuseWrites :
    ((0x400 : BusAddr) ≤ 0x400 ∧ (0x400 : BusAddr) ≤ 0x5FF ∧ (0x5FF : BusAddr) ≤ 0x5FF) ∧
    (todo [.txn (writeWord 0x003 0x2A)]).faultRecord = none ∧
    (todo [.txn (writeWord 0x003 0x2A)]).busy = false ∧
    (todo [.txn (writeWord 0x003 0x2A)]).program = .txn (writeWord 0x003 0x2A) :: [] ∧
    keyShown (exec (.hostWr 0x3FF 0x2A) State.reset) = some (0x00, 0x00, false) := by decide

theorem witness_PendingCommandAllowsOnlyStatusReads :
    let s := pendingWith 0x01 1 [.txn 0x80001]
    s.busy = true ∧ s.faultRecord = none ∧ 0 < s.delay ∧ s.program = .txn 0x80001 :: [] ∧
      encode (.hostWr 0x000 0x01) = .transaction 0x80001 ∧ Instr.hostWr 0x000 0x01 ≠ .hostRd 0x001 ∧
      (0x000 : BusAddr) ≠ 0x001 ∧ (0x002 : BusAddr) ≠ 0x001 := by decide

theorem witness_ValuelessBytesFaultOnRead :
    State.reset.busy = false ∧ written State.reset 0 = false ∧ written State.reset 511 = false ∧
    State.reset.outLen.toNat ≤ 0 ∧ { State.reset with outLen := 511, mem := [(0x5FF, 0x01)] }.outLen.toNat ≤ 511 := by
  decide

theorem witness_ReservedAddressesFault :
    ((0x008 : BusAddr) ≤ 0x008 ∧ (0x008 : BusAddr) ≤ 0x1FF ∧ (0x1FF : BusAddr) ≤ 0x1FF ∧ (0x600 : BusAddr) ≤ 0x600 ∧
      (0x600 : BusAddr) ≤ 0x7FF) ∧
    (todo [.txn (readWord 0x7FF)]).busy = false ∧ (todo [.txn (readWord 0x7FF)]).faultRecord = none ∧
    (todo [.txn (readWord 0x7FF)]).program = .txn (readWord 0x7FF) :: [] := by decide

theorem witness_OnlyCommandWritesHaveSideEffects :
    (∃ t, exec (.hostRd 0x001) State.reset = .next t) ∧
    (∃ t, exec (.hostWr 0x200 0x11) State.reset = .next t ∧ (0x200 : BusAddr) ≠ 0x000 ∧ locate 0x200 = .inBuf 0) ∧
    (∃ t, exec (.hostWr 0x3FF 0x11) State.reset = .next t ∧ (0x3FF : BusAddr) ≠ 0x000 ∧ locate 0x3FF = .inBuf 511) ∧
    (∃ t, exec (.hostWr 0x004 0xFF) State.reset = .next t ∧ (0x004 : BusAddr) ≠ 0x000) ∧
    (∃ t, exec (.hostWr 0x005 0xFF) State.reset = .next t ∧ (0x005 : BusAddr) ≠ 0x000) :=
  ⟨⟨_, rfl⟩, ⟨_, rfl, by decide, by decide⟩, ⟨_, rfl, by decide, by decide⟩, ⟨_, rfl, by decide⟩, _, rfl, by decide⟩

/-- `IN[511]` changed by a host write, by a copy and by reset; `OUT[0]` by the block's step and by reset. -/
theorem witness_EachBufferHasOneWriter :
    (∃ t, step (todo [.txn (writeWord 0x3FF 0x11)]) = .next t ∧ inByte t 511 ≠ inByte State.reset 511) ∧
    (∃ t, step { todo [.wrLast 0x3FF] with hostReads := [0x11] } = .next t ∧ inByte t 511 ≠ inByte State.reset 511) ∧
    (∃ t, step { todo [.reset] with mem := [(0x3FF, 0x11), (0x400, 0x12)] } = .next t ∧
      inByte t 511 ≠ some 0x11 ∧ outByte t 0 ≠ some 0x12) ∧
    (∃ t, step (pendingWith 0x01 0 []) = .next t ∧ outByte t 0 ≠ outByte (pendingWith 0x01 0 []) 0) :=
  ⟨⟨_, rfl, by decide⟩, ⟨_, rfl, by decide⟩, ⟨_, rfl, by decide⟩, _, rfl, by decide⟩

theorem witness_FaultRecordIsSticky :
    ((todo [.txn 0x00800]).faultRecord = none ∧ step (todo [.txn 0x00800]) = .fault .reservedAccess) ∧
    { State.reset with faultRecord := some .readStale }.faultRecord = some .readStale :=
  ⟨⟨rfl, rfl⟩, rfl⟩

theorem witness_ResetStepLeavesTheResetState :
    ((todo [.reset]).faultRecord = none ∧ (todo [.reset]).busy = false ∧ (todo [.reset]).program = .reset :: []) ∧
    (0 < (pendingWith 0x01 1 [.reset, .wait]).delay ∧
      (pendingWith 0x01 1 [.reset, .wait]).program = .reset :: [.wait]) := by decide

/-- A state that meets the invariant and takes a step that moves. -/
theorem witness_EveryStepKeepsTheInvariant :
    (pendingWith 0x01 0 []).Inv ∧ ∃ t, step (pendingWith 0x01 0 []) = .next t ∧ t ≠ pendingWith 0x01 0 [] :=
  ⟨{ memCanonical := List.Pairwise.nil
     memInBuffers := by decide
     errIffCode := by decide
     codeIsOneOfNine := by decide
     errImpliesDone := by decide
     outLenBound := by decide
     resultHeld := by decide
     pendingIsClean := by decide
     onlyPendingIsDelayed := by decide
     failedLeavesNothing := by decide }, _, rfl, by decide⟩

theorem witness_Checksum16SumsBigEndianWords : ([0x00, 0x01] : List Byte).length % 2 = 0 := by decide

theorem witness_LoadAndSetlenMakeTheInput :
    State.reset.faultRecord = none ∧ State.reset.busy = false ∧ (many 512 0x10).length ≤ 512 :=
  ⟨rfl, rfl, by simp⟩

theorem witness_DriveIsARunOfTheMachine : ∃ t, drive [wr 0x200 0x10, rd 0x200] State.reset = .next t := ⟨_, rfl⟩

theorem witness_FrameOverTheBus :
    State.reset.faultRecord = none ∧ State.reset.busy = false ∧ (many 254 0x01).length ≤ 254 ∧
    254 < (many 255 0x01).length :=
  ⟨rfl, rfl, by simp, by simp⟩

/-- A session in which nothing has happened yet. -/
def fresh : Session := { block := State.reset, sent := [] }

/-- A transport that answers the `n`-th message with the `n`-th reply, and fails when it has none left. -/
def scripted (replies : List (List Byte)) : Transport := fun sent => replies[sent.length - 1]?

/-- A malformed reply for each code, an accepted one of each form, and a payload at the limit and past it. -/
theorem witness_TransceiveSendsProbeThenFrame :
    let probe : List Byte := [0x00, 0xA4, 0x04, 0x00]
    let f : List Byte := frameOf [0x10]
    SessionIdle fresh ∧ scripted [] (fresh.sent ++ [probe]) = none ∧
    (scripted [[]] (fresh.sent ++ [probe]) = some [] ∧ 254 < (many 255 0x00).length ∧ (many 254 0x00).length ≤ 254) ∧
    scripted [[]] (fresh.sent ++ [probe, f]) = none ∧
    (scripted [[], [0xAA, 0x02, 0x41, 0x41]] (fresh.sent ++ [probe, f]) = some [0xAA, 0x02, 0x41, 0x41] ∧
      ReplyCarries [0xAA, 0x02, 0x41, 0x41] [0x41] ∧ ReplyCarries [0xAA, 0x00, 0x05] []) ∧
    (scripted [[], [0x00]] (fresh.sent ++ [probe, f]) = some [0x00] ∧ ReplyRefusedWith [0x00] 0x01 ∧
      ReplyRefusedWith [0xAA] 0x03 ∧ ReplyRefusedWith [0xAA, 0x02, 0x41, 0x00] 0x02) :=
  ⟨⟨rfl, rfl⟩, by decide, ⟨by decide, by simp, by simp⟩, by decide,
    ⟨by decide, .inl ⟨by decide, [], by decide⟩, .inr ⟨rfl, [0x05], rfl⟩⟩,
    by decide, .inl ⟨rfl, by decide⟩, .inr (.inl ⟨rfl, rfl, .inl (by decide)⟩),
    .inr (.inr ⟨rfl, rfl, 0x02, rfl, by decide, by decide⟩)⟩

/-- The transport of the source's end-to-end scenario (S7). -/
def s7 : Transport := scripted [[], [0xAA, 0x06, 0x00, 0x00, 0x00, 0x00, 0x2A, 0x2A], [], [0xAA, 0x02, 0x01, 0x01]]

/-- The source's scenario: its burn frame is that of table S7. -/
theorem witness_BurnSeedSendsTheKeyedBurnBuffer :
    let probe : List Byte := [0x00, 0xA4, 0x04, 0x00]
    let getInfoFrame : List Byte := [0x86, 0x02, 0x10, 0x10]
    let info : List Byte := [0x00, 0x00, 0x00, 0x00, 0x2A]
    let burnFrame : List Byte := frameOf (0x18 :: (burnBuffer [0x11, 0x22]).map (fun b => b ^^^ 0x2A))
    burnFrame = [0x86, 0x08, 0x18, 0x3B, 0x08, 0x2C, 0x34, 0x7B, 0x1D, 0x55] ∧ SessionIdle fresh ∧
    info[4]? = some 0x2A ∧ s7 (fresh.sent ++ [probe]) = some [] ∧
    s7 (fresh.sent ++ [probe, getInfoFrame]) = some [0xAA, 0x06, 0x00, 0x00, 0x00, 0x00, 0x2A, 0x2A] ∧
    ReplyCarries [0xAA, 0x06, 0x00, 0x00, 0x00, 0x00, 0x2A, 0x2A] info ∧
    s7 (fresh.sent ++ [probe, getInfoFrame, probe]) = some [] ∧
    s7 (fresh.sent ++ [probe, getInfoFrame, probe, burnFrame]) = some [0xAA, 0x02, 0x01, 0x01] ∧
    ReplyCarries [0xAA, 0x02, 0x01, 0x01] [0x01] :=
  ⟨by decide, ⟨rfl, rfl⟩, by decide, by decide, by decide, .inl ⟨by decide, [], by decide⟩, by decide, by decide,
    .inl ⟨by decide, [], by decide⟩⟩

/-- A transport for each error: none left to answer each of the four calls, a malformed and a short-info reply to the
GetInfo frame, a malformed reply to the burn frame; and seeds of 249 and 250 bytes. -/
theorem witness_FirstErrorEndsTheHostOperation :
    let probe : List Byte := [0x00, 0xA4, 0x04, 0x00]
    let getInfoFrame : List Byte := [0x86, 0x02, 0x10, 0x10]
    let info : List Byte := [0xAA, 0x06, 0x00, 0x00, 0x00, 0x00, 0x2A, 0x2A]
    let sent₁ := fresh.sent ++ [probe]
    let sent₂ := fresh.sent ++ [probe, getInfoFrame]
    let sent₃ := fresh.sent ++ [probe, getInfoFrame, probe]
    let sent₄ := fresh.sent ++ [probe, getInfoFrame, probe,
      frameOf (0x18 :: (burnBuffer [0x11, 0x22]).map (fun b => b ^^^ 0x2A))]
    SessionIdle fresh ∧ scripted [] sent₁ = none ∧ scripted [[]] sent₁ = some [] ∧ scripted [[]] sent₂ = none ∧
    (scripted [[], [0xAA]] sent₂ = some [0xAA] ∧ ReplyRefusedWith [0xAA] 0x03) ∧
    (scripted [[], [0xAA, 0x01, 0x00]] sent₂ = some [0xAA, 0x01, 0x00] ∧ ReplyCarries [0xAA, 0x01, 0x00] []) ∧
    (scripted [[], info] sent₂ = some info ∧ ReplyCarries info [0x00, 0x00, 0x00, 0x00, 0x2A] ∧
      scripted [[], info] sent₃ = none) ∧
    (scripted [[], info, []] sent₃ = some [] ∧ scripted [[], info, []] sent₄ = none ∧
      249 < (many 250 0x00).length ∧ (many 249 0x00).length ≤ 249) ∧
    (scripted [[], info, [], [0xAA, 0x02, 0x41, 0x00]] sent₄ = some [0xAA, 0x02, 0x41, 0x00] ∧
      ReplyRefusedWith [0xAA, 0x02, 0x41, 0x00] 0x02) :=
  ⟨⟨rfl, rfl⟩, by decide, by decide, by decide, ⟨by decide, .inr (.inl ⟨rfl, rfl, .inl (by decide)⟩)⟩,
    ⟨by decide, .inl ⟨by decide, [], by decide⟩⟩, ⟨by decide, .inl ⟨by decide, [], by decide⟩, by decide⟩,
    ⟨by decide, by decide, by simp, by simp⟩, by decide,
    .inr (.inr ⟨rfl, rfl, 0x02, rfl, by decide, by decide⟩)⟩

theorem witness_RecordedRunIsOver :
    { todo [.reset] with faultRecord := some .readStale }.faultRecord = some .readStale ∧
    (∃ t, step (todo [.reset]) = .next t) :=
  ⟨rfl, _, rfl⟩

end Sys2Proof.Tests
end

section
/-! R9, the XOR fold: its equations, and its value under a reordering of the bytes. -/

namespace Sys2Proof.Proofs

open Sys2Proof.Machine

@[simp] theorem fold_nil : fold [] = 0x00 := rfl

@[simp] theorem fold_append_singleton (s : List Byte) (b : Byte) : fold (s ++ [b]) = fold s ^^^ b :=
  List.foldl_concat ..

/-- XOR is commutative and associative, so the accumulator takes two neighbouring bytes in either order. -/
theorem fold_eq_of_perm {s t : List Byte} (h : s.Perm t) : fold s = fold t :=
  h.foldl_op_eq (op := (· ^^^ ·))

/-- Settles O5, from the fold's two equations (R9) and its invariance under permutation. -/
theorem foldIsXorInAnyOrder : Obligations.FoldIsXorInAnyOrder :=
  ⟨fold_nil, fold_append_singleton, fun _ _ => fold_eq_of_perm⟩

end Sys2Proof.Proofs
end

section
/-! R34 and R110, the fault record: what recording a fault does to the state, and what a recorded step does when the
machine's step faults. -/

namespace Sys2Proof.Proofs

open Sys2Proof.Machine Sys2Proof.Laws

theorem recordFault_of_none {s : State} (h : s.faultRecord = none) (r : Fault) :
    recordFault r s = { s with faultRecord := some r } := by
  simp only [recordFault, h]

theorem recordFault_of_some {s : State} {r : Fault} (h : s.faultRecord = some r) (q : Fault) :
    recordFault q s = s := by
  simp only [recordFault, h]

theorem sameButFaultRecord_recordFault (r : Fault) (s : State) : SameButFaultRecord s (recordFault r s) := by
  cases h : s.faultRecord with
  | none => simp only [SameButFaultRecord, recordFault_of_none h]
  | some q => rw [SameButFaultRecord, recordFault_of_some h]

theorem stepRecording_of_fault {s : State} {r : Fault} (h : step s = .fault r) :
    stepRecording s = recordFault r s := by
  simp only [stepRecording, h]

/-- R110: a run that recorded a fault is over, so every further recorded step leaves its state alone. -/
theorem stepRecording_of_faulted {s : State} {r : Fault} (h : s.faultRecord = some r) : stepRecording s = s := by
  rw [stepRecording_of_fault (step_faulted h), recordFault_of_some h]

/-- Settles O44: the first fault is written by `recordFault` and touches nothing else; a faulted state is a fixed point
of the recorded step; and reset copies the record. -/
theorem faultRecordIsSticky : Obligations.FaultRecordIsSticky := by
  refine ⟨rfl, fun s r hempty hfault => ?_, fun s r hrec => ?_⟩
  · rw [stepRecording_of_fault hfault]
    exact ⟨by rw [recordFault_of_none hempty], sameButFaultRecord_recordFault r s⟩
  · exact ⟨by rw [stepRecording_of_faulted hrec, hrec], by rw [applyReset_faultRecord, hrec]⟩

end Sys2Proof.Proofs
end

section
/-! R41, the reserved addresses: both ranges name the location `reserved`, an access to it is RESERVED_ACCESS whichever
way it goes, and a recorded step whose transaction faults writes the fault record and nothing else. -/

namespace Sys2Proof.Proofs

open Sys2Proof.Machine Sys2Proof.Laws

/-- The two reserved ranges of R40, in the bus's own addresses. -/
theorem locate_eq_reserved_of_range {a : BusAddr} (h : (0x008 ≤ a ∧ a ≤ 0x1FF) ∨ 0x600 ≤ a) : locate a = .reserved :=
  locate_reserved (by bv_omega)

theorem exec_hostRd_reserved {s : State} {a : BusAddr} (hb : s.busy = false) (ha : locate a = .reserved) :
    exec (.hostRd a) s = .fault .reservedAccess := by
  simp only [exec, execHostRd, busRead_idle hb, ha]

theorem exec_hostWr_reserved {s : State} {a : BusAddr} (hb : s.busy = false) (ha : locate a = .reserved) (v : Byte) :
    exec (.hostWr a v) s = .fault .reservedAccess := by
  simp only [exec, execHostWr, busWrite, hb, ha, Bool.false_eq_true, if_false]

/-- R110 for a host transaction: the run records the reason in the state before the step, the faulting operation still
at the head of the host's program. -/
theorem stepRecording_txn_of_fault {s : State} {w : TransWord} {rest : List HostOp} {i : Instr} {r : Fault}
    (hf : s.faultRecord = none) (hb : s.busy = false) (hp : s.program = .txn w :: rest)
    (hd : decode (.transaction w) = .ok i) (hi : exec i (hostTurn rest s) = .fault r) :
    stepRecording s = { s with faultRecord := some r } := by
  have hstep : step s = .fault r := by simp only [step_host hf (.inl hb) hp, hostOp, hd, hi]
  rw [stepRecording_of_fault hstep, recordFault_of_none hf]

/-- Settles O41: `exec` faults in any idle state, so also in the one the host's turn leaves, and the step records it. -/
theorem reservedAddressesFault : Obligations.ReservedAddressesFault := by
  intro s a v hb hrange
  have ha := locate_eq_reserved_of_range hrange
  refine ⟨exec_hostRd_reserved hb ha, exec_hostWr_reserved hb ha v, fun w rest hf hw hp => ?_⟩
  have hturn : (hostTurn rest s).busy = false := by rw [hostTurn_busy, hb]
  rcases hw with rfl | rfl
  · exact stepRecording_txn_of_fault hf hb hp (decode_readWord a) (exec_hostRd_reserved hturn ha)
  · exact stepRecording_txn_of_fault hf hb hp (decode_writeWord a v) (exec_hostWr_reserved hturn ha v)

end Sys2Proof.Proofs
end

section
/-! R54, the transaction word: the fields `W`, `A` and `D` as quotients of the word's number, and what the decoder
answers in each of its three cases. -/

namespace Sys2Proof.Proofs

open Sys2Proof.Machine

/-- Bit 19 is the top bit of a 20-bit word, so it is the whole quotient by 2^19. -/
theorem isWrite_iff_toNat_div (w : TransWord) : w.isWrite = true ↔ w.toNat / 2 ^ 19 = 1 := by
  have hbit : w.isWrite = decide (w.toNat / 2 ^ 19 % 2 = 1) := Nat.testBit_eq_decide_div_mod_eq
  rw [hbit, decide_eq_true_iff]
  have hw := w.isLt
  omega

theorem addr_eq_ofNat (w : TransWord) : w.addr = BitVec.ofNat 11 (w.toNat / 2 ^ 8) := by
  apply BitVec.eq_of_toNat_eq
  simp [TransWord.addr, Nat.shiftRight_eq_div_pow]

theorem data_eq_ofNat (w : TransWord) : w.data = BitVec.ofNat 8 w.toNat := by
  apply BitVec.eq_of_toNat_eq
  simp [TransWord.data]

theorem data_eq_zero_iff (w : TransWord) : w.data = 0x00 ↔ w.toNat % 2 ^ 8 = 0 := by
  rw [data_eq_ofNat, BitVec.toNat_eq, BitVec.toNat_ofNat]
  rfl

theorem decode_transaction_write {w : TransWord} (hw : w.isWrite = true) :
    decode (.transaction w) = .ok (.hostWr w.addr w.data) :=
  if_pos hw

theorem decode_transaction_read {w : TransWord} (hw : ¬ w.isWrite = true) (hd : w.data = 0x00) :
    decode (.transaction w) = .ok (.hostRd w.addr) :=
  (if_neg hw).trans (if_pos hd)

theorem decode_transaction_readWithData {w : TransWord} (hw : ¬ w.isWrite = true) (hd : w.data ≠ 0x00) :
    decode (.transaction w) = .error .readWordWithData :=
  (if_neg hw).trans (if_neg hd)

/-- Settles O2: the decoder's three cases, each with its fields read off the word's number; the example words are built
words, whose decoding is known. -/
theorem transactionWordLayout : Obligations.TransactionWordLayout := by
  have not_write {w : TransWord} (h : w.toNat / 2 ^ 19 = 0) : ¬ w.isWrite = true := by
    rw [isWrite_iff_toNat_div]; omega
  refine ⟨fun w => ⟨fun h => ?_, fun h hd => ?_, fun h hd => ?_⟩, ?_⟩
  · rw [decode_transaction_write ((isWrite_iff_toNat_div w).mpr h), addr_eq_ofNat, data_eq_ofNat]
  · rw [decode_transaction_read (not_write h) ((data_eq_zero_iff w).mpr hd), addr_eq_ofNat]
  · exact decode_transaction_readWithData (not_write h) (mt (data_eq_zero_iff w).mp hd)
  · exact ⟨Laws.decode_writeWord 0x200 0x10, Laws.decode_writeWord 0x000 0x01, Laws.decode_readWord 0x001,
      Laws.decode_readWord 0x400⟩

end Sys2Proof.Proofs
end

section
/-! R52, the reserved command bytes: the block's step of one is the completion with ERR_BADCMD and nothing else. -/

namespace Sys2Proof.Proofs

open Sys2Proof.Machine Sys2Proof.Laws

theorem blockStep_reserved {s : State} (h : s.cmdLast = 0x00 ∨ 0x05 ≤ s.cmdLast) :
    blockStep s = .next (complete .badCmd s) := by
  simp only [blockStep, decodeCommand_reserved h]

/-- Settles O11: the write to CMD is the command start (R60), the block's step of it is `complete .badCmd` (R61), and
the two together touch no other field. -/
theorem reservedByteCompletesWithBadCmd : Obligations.ReservedByteCompletesWithBadCmd := by
  intro s v hv hb hf
  have hstep : step { startCommand v s with delay := 0 } =
      .next (complete .badCmd { startCommand v s with delay := 0 }) := by
    rw [step_block (by simpa using hf) (by simp) (.inl rfl), blockStep_reserved (by simpa using hv)]
  exact ⟨startCommand v s, _, exec_writeCmd hb v, hstep, completedWith_complete .badCmd _, by simp⟩

end Sys2Proof.Proofs
end

section
/-! R60 and R63: the command start and the check for unwritten input, each one law of a shared operation. -/

namespace Sys2Proof.Proofs

open Sys2Proof.Machine Sys2Proof.Laws

/-- Settles O10: an idle write to CMD is `startCommand`, whose fields are known; a pending command faults any write. -/
theorem commandStartSetsItsState : Obligations.CommandStartSetsItsState := by
  intro s v
  refine ⟨fun hidle => ⟨startCommand v s, exec_writeCmd hidle v, ?_⟩, fun hbusy => exec_hostWr_busy hbusy 0x000 v⟩
  simp

/-- Settles O13: the check for unwritten input stands before every command's own rule. -/
theorem unwrittenInputFaults : Obligations.UnwrittenInputFaults := by
  intro c s i hc hlen hi hunwritten
  rw [exec_command hc]
  exact withInput_uninit hlen ⟨i, hi, hunwritten⟩

end Sys2Proof.Proofs
end

section
/-! R71, R85 and R88: the commands' own rules, an equation a case. -/

namespace Sys2Proof.Proofs

open Sys2Proof.Machine Sys2Proof.Laws

theorem toByte_eq_zero {code : ErrorCode} : code.toByte = 0x00 ↔ code = .ok := by
  cases code <;> decide

/-- R71 is FRAME's only refusal. -/
theorem frameBytes_error {p : List Byte} {code : ErrorCode} (h : frameBytes p = .error code) : code = .encoding := by
  unfold frameBytes at h
  split at h <;> cases h
  rfl

theorem loadKeyFrom_short {info : List Byte} (h : info[4]? = none) (s : State) :
    loadKeyFrom info s = complete .infoShort (dropKey s) :=
  if_pos (Nat.lt_succ_of_le (List.getElem?_eq_none_iff.mp h))

theorem loadKeyFrom_key {info : List Byte} {k : Byte} (h : info[4]? = some k) (s : State) :
    loadKeyFrom info s = complete .ok { s with key := k, keyValid := true } := by
  rcases loadKeyFrom_cases info s with ⟨hshort, _⟩ | ⟨k', hk', hload⟩
  · rw [List.getElem?_eq_none (by omega)] at h
    cases h
  · rw [hload, Option.some.inj (hk'.symm.trans h)]

theorem xorWithKey_valid {s : State} (h : s.keyValid = true) (b : List Byte) :
    xorWithKey b s = deliver (.ok (xorBytes s.key b)) (dropKey s) :=
  if_pos h

theorem xorWithKey_noKey {s : State} (h : s.keyValid = false) (b : List Byte) :
    xorWithKey b s = complete .noKey s :=
  if_neg (by rw [h]; nofun)

end Sys2Proof.Proofs
end

section
/-! R64 and R65: a command's completion step as a function of its inputs. The inputs select one of three ends, or the
model fault UNINIT_INPUT, the same for every state that has these inputs; what a command may change is read off the ends. -/

namespace Sys2Proof.Proofs

open Sys2Proof.Machine Sys2Proof.Laws

/-- The states agree on all that R65 lets a command read: IN_LEN, IN_BUF, KEY and KEY_VALID. -/
def SameInputs (s s' : State) : Prop :=
  s'.inLen = s.inLen ∧ (∀ i, i < 512 → inByte s' i = inByte s i) ∧ s'.key = s.key ∧ s'.keyValid = s.keyValid

/-- How a command's completion step ends when it is no model fault. -/
inductive CommandEnd where
  /-- An error code and no result (R64). -/
  | failed (code : ErrorCode)
  /-- A result in OUT_BUF (R70, R75, R88). -/
  | delivered (out : List Byte)
  /-- A new key (R85). -/
  | keyLoaded (k : Byte)

/-- The state that command `c` leaves when it ends so: a failed LOADKEY and a completed KEYXOR clear KEY_VALID (R86, R88). -/
def CommandEnd.leave (c : Instr) : CommandEnd → State → State
  | .failed code, s => complete code (if c = .loadkey then dropKey s else s)
  | .delivered out, s => deliver (.ok out) (if c = .keyxor then dropKey s else s)
  | .keyLoaded k, s => complete .ok { s with key := k, keyValid := true }

/-- The ends that command `c` can have: a failure has an error code, a result fits in OUT_BUF, and only LOADKEY loads a
key and has no result. -/
def CommandEnd.Of (c : Instr) : CommandEnd → Prop
  | .failed code => code ≠ .ok
  | .delivered out => c ≠ .loadkey ∧ out.length ≤ 512
  | .keyLoaded _ => c = .loadkey

theorem sameInputs_refl (s : State) : SameInputs s s := ⟨rfl, fun _ _ => rfl, rfl, rfl⟩

theorem SameInputs.inputIs {s s' : State} (h : SameInputs s s') {p : List Byte} (hl : p.length ≤ 512)
    (hp : InputIs s p) : InputIs s' p := by
  obtain ⟨hlen, hin, -, -⟩ := h
  obtain ⟨hn, hbytes⟩ := hp
  exact ⟨by rw [hlen, hn], fun i hi => by rw [hin i (by omega), hbytes i hi]⟩

/-- A command's own rule looks at nothing but the input, KEY and KEY_VALID. -/
theorem commandRule_end {c : Instr} (hc : IsCommand c) (s : State) {p : List Byte} (hl : p.length ≤ 512) :
    ∃ e : CommandEnd, e.Of c ∧ ∀ s', SameInputs s s' → commandRule c p s' = e.leave c s' := by
  rcases hc with rfl | rfl | rfl | rfl
  case inl =>
    cases hp : frameBytes p with
    | error code => exact ⟨.failed code, frameBytes_error hp ▸ nofun, fun s' _ => congrArg (deliver · s') hp⟩
    | ok out =>
      have hout : out.length ≤ 512 := (frameBytes_length_le hp).trans (by decide)
      exact ⟨.delivered out, ⟨nofun, hout⟩, fun s' _ => congrArg (deliver · s') hp⟩
  case inr.inl =>
    cases hp : unframeBytes p with
    | error code =>
      have hcode : code ≠ .ok := by rcases unframeBytes_error hp with rfl | rfl | rfl <;> nofun
      exact ⟨.failed code, hcode, fun s' _ => congrArg (deliver · s') hp⟩
    | ok out =>
      have hout : out.length ≤ 512 := (unframeBytes_length_le hp).trans (by decide)
      exact ⟨.delivered out, ⟨nofun, hout⟩, fun s' _ => congrArg (deliver · s') hp⟩
  case inr.inr.inl =>
    cases hp : p[4]? with
    | none => exact ⟨.failed .infoShort, nofun, fun s' _ => loadKeyFrom_short hp s'⟩
    | some k => exact ⟨.keyLoaded k, rfl, fun s' _ => loadKeyFrom_key hp s'⟩
  case inr.inr.inr =>
    cases hv : s.keyValid with
    | true =>
      have hout : (xorBytes s.key p).length ≤ 512 := by simpa [xorBytes] using hl
      refine ⟨.delivered (xorBytes s.key p), ⟨nofun, hout⟩, fun s' ⟨_, _, hkey, hvalid⟩ => ?_⟩
      rw [← hkey]
      exact xorWithKey_valid (hvalid.trans hv) p
    | false => exact ⟨.failed .noKey, nofun, fun s' ⟨_, _, _, hvalid⟩ => xorWithKey_noKey (hvalid.trans hv) p⟩

/-- R65: the completion step on given inputs, whatever else the state holds. -/
theorem exec_command_end {c : Instr} (hc : IsCommand c) (s : State) :
    (∀ s', SameInputs s s' → exec c s' = .fault .uninitInput) ∨
    (∃ e : CommandEnd, e.Of c ∧ ∀ s', SameInputs s s' → exec c s' = .next (e.leave c s')) := by
  rcases command_cases hc s with ⟨hlong, _⟩ | ⟨hlen, ⟨i, hi, hun⟩, _⟩ | ⟨p, hl, hp, _⟩
  · refine .inr ⟨.failed .badLen, nofun, fun s' h => ?_⟩
    rw [exec_command hc]
    exact withInput_badLen (by rwa [h.1])
  · refine .inl fun s' ⟨hin, hbuf, _, _⟩ => ?_
    have hun' : written s' i = false := by rwa [written, hbuf i (by omega)]
    exact unwrittenInputFaults c s' i hc (by rwa [hin]) (by rwa [hin]) hun'
  · obtain ⟨e, he, hrule⟩ := commandRule_end hc s hl
    exact .inr ⟨e, he, fun s' h => by rw [exec_command_eq hc (h.inputIs hl hp) hl, hrule s' h]⟩

/-- The end of a step that answered a next state. -/
theorem exec_command_next {c : Instr} (hc : IsCommand c) {s t : State} (h : exec c s = .next t) :
    ∃ e : CommandEnd, e.Of c ∧ t = e.leave c s ∧ ∀ s', SameInputs s s' → exec c s' = .next (e.leave c s') := by
  rcases exec_command_end hc s with hfault | ⟨e, he, hend⟩
  · simp [hfault s (sameInputs_refl s)] at h
  · rw [hend s (sameInputs_refl s), Host.Outcome.next.injEq] at h
    exact ⟨e, he, h.symm, hend⟩

/-- Each end keeps CMD_LAST, IN_LEN and IN_BUF: a result goes to OUT_BUF, past the last byte of IN_BUF (R65). -/
theorem CommandEnd.leave_keeps_input (e : CommandEnd) (c : Instr) (s : State) :
    (e.leave c s).cmdLast = s.cmdLast ∧ (e.leave c s).inLen = s.inLen ∧
      ∀ i, i < 512 → inByte (e.leave c s) i = inByte s i := by
  cases e with
  | failed code => simp only [leave]; split <;> exact ⟨rfl, rfl, fun _ _ => rfl⟩
  | delivered out =>
    have hkeep (u : State) : (deliver (.ok out) u).cmdLast = u.cmdLast ∧ (deliver (.ok out) u).inLen = u.inLen ∧
        ∀ i, i < 512 → inByte (deliver (.ok out) u) i = inByte u i :=
      ⟨rfl, rfl, fun i hi => memoryUnchangedOutside_deliver out u _ (.inl (by simp only [Config.inBase]; omega))⟩
    simp only [leave]
    split <;> exact hkeep _
  | keyLoaded k => exact ⟨rfl, rfl, fun _ _ => rfl⟩

/-- ERRCODE, KEY and KEY_VALID after an end depend on nothing of the state but KEY and KEY_VALID. -/
theorem CommandEnd.leave_result (e : CommandEnd) (c : Instr) {s s' : State} (h : SameInputs s s') :
    (e.leave c s').errCode = (e.leave c s).errCode ∧ (e.leave c s').key = (e.leave c s).key ∧
      (e.leave c s').keyValid = (e.leave c s).keyValid := by
  obtain ⟨-, -, hkey, hvalid⟩ := h
  cases e with
  | failed code => simp only [leave]; split <;> simp [hkey, hvalid]
  | delivered out => simp only [leave, deliver_ok]; split <;> simp [hkey, hvalid]
  | keyLoaded k => simp [leave]

/-- An end with code OK, of another command than LOADKEY, has the same result bytes in every state. -/
theorem CommandEnd.leave_output {e : CommandEnd} {c : Instr} (he : e.Of c) (hc : c ≠ .loadkey) {s : State}
    (hok : (e.leave c s).errCode = 0x00) : ∃ out, ∀ s', OutputIs (e.leave c s') out := by
  cases e with
  | failed code => exact absurd (toByte_eq_zero.mp hok) he
  | delivered out => exact ⟨out, fun s' => outputIs_deliver he.2 _⟩
  | keyLoaded k => exact absurd he hc

/-- Settles O15: an error code tells the end `failed` from the others, and it only completes, after LOADKEY's clearing
of KEY_VALID. -/
theorem failedCommandWritesNoResult : Obligations.FailedCommandWritesNoResult := by
  intro c s t hc hnext herr
  obtain ⟨e, -, rfl, -⟩ := exec_command_next hc hnext
  cases e with
  | failed code =>
    simp only [CommandEnd.leave]
    split
    case isTrue hload => exact ⟨rfl, fun _ => rfl, rfl, absurd hload, fun _ => rfl⟩
    case isFalse hload => exact ⟨rfl, fun _ => rfl, rfl, fun _ => rfl, (absurd · hload)⟩
  | delivered out => exact absurd rfl herr
  | keyLoaded k => exact absurd rfl herr

/-- Settles O16: the inputs alone select the command's end, and an end keeps the inputs and fixes the result. -/
theorem commandIsAFunctionOfItsInputs : Obligations.CommandIsAFunctionOfItsInputs := by
  intro c s hc
  refine ⟨fun t hnext => ?_, fun s' hlen hbuf hkey hvalid => ⟨fun r hfault => ?_, fun t hnext => ?_⟩⟩
  · obtain ⟨e, -, rfl, -⟩ := exec_command_next hc hnext
    exact e.leave_keeps_input c s
  · rcases exec_command_end hc s with hend | ⟨e, -, hend⟩
    · rw [hend s' ⟨hlen, hbuf, hkey, hvalid⟩, ← hfault, hend s (sameInputs_refl s)]
    · rw [hend s (sameInputs_refl s)] at hfault
      cases hfault
  · have hsame : SameInputs s s' := ⟨hlen, hbuf, hkey, hvalid⟩
    obtain ⟨e, he, rfl, hend⟩ := exec_command_next hc hnext
    obtain ⟨herr, hkey', hvalid'⟩ := e.leave_result c hsame
    refine ⟨e.leave c s', hend s' hsame, herr, hkey', hvalid', fun hload hok x => ?_⟩
    obtain ⟨out, hout⟩ := e.leave_output he hload hok
    exact ⟨fun h => outputIs_unique (hout s) h ▸ hout s', fun h => outputIs_unique (hout s') h ▸ hout s⟩

end Sys2Proof.Proofs
end

section
/-! R70 to R73, FRAME: its completion step by the payload's length, the bytes of a frame, and the framing round trip. -/

namespace Sys2Proof.Proofs

open Sys2Proof.Machine Sys2Proof.Laws

theorem exec_frame_ok {s : State} {p : List Byte} (hp : InputIs s p) (hl : p.length ≤ 254) :
    exec .frame s = .next (deliver (.ok (frameOf p)) s) := by
  rw [exec_command_eq (.inl rfl) hp (by omega), commandRule, frameBytes_ok hl, frameOf]

theorem exec_frame_encoding {s : State} {p : List Byte} (hp : InputIs s p) (hlong : 254 < p.length)
    (hl : p.length ≤ 512) : exec .frame s = .next (complete .encoding s) := by
  rw [exec_command_eq (.inl rfl) hp hl, commandRule, frameBytes_long hlong, deliver_error]

theorem exec_frame_badLen {s : State} {p : List Byte} (hp : InputIs s p) (hlong : 512 < p.length) :
    exec .frame s = .next (complete .badLen s) :=
  withInput_badLen (hp.1 ▸ hlong)

/-- A payload too long for a frame ends FRAME with an error code, whichever limit it exceeds (R62, R71). -/
theorem exec_frame_long {s : State} {p : List Byte} (hp : InputIs s p) (hlong : 254 < p.length) :
    ∃ code, code ≠ .ok ∧ exec .frame s = .next (complete code s) := by
  by_cases hl : p.length ≤ 512
  · exact ⟨.encoding, nofun, exec_frame_encoding hp hlong hl⟩
  · exact ⟨.badLen, nofun, exec_frame_badLen hp (by omega)⟩

/-- A frame adds the header, the length byte and the checksum to its payload (R55). -/
@[simp] theorem length_frameOf (p : List Byte) : (frameOf p).length = p.length + 3 := by
  simp [frameOf]

@[simp] theorem frameOf_lengthByte (p : List Byte) : (frameOf p)[1]? = some (BitVec.ofNat 8 (p.length + 1)) := rfl

theorem frameOf_drop_two (p : List Byte) : (frameOf p).drop 2 = p ++ [fold p] := rfl

theorem frameOf_getElem?_two_add (p : List Byte) (i : Nat) : (frameOf p)[2 + i]? = (p ++ [fold p])[i]? := by
  rw [← frameOf_drop_two, List.getElem?_drop]

/-- The checksum byte cancels the fold of the payload before it (R72). -/
theorem fold_frameOf_drop_two (p : List Byte) : fold ((frameOf p).drop 2) = 0x00 := by
  rw [frameOf_drop_two, fold_append_singleton, BitVec.xor_self]
  rfl

theorem outputIs_deliver_frameOf (s : State) {p : List Byte} (hl : p.length ≤ 254) :
    OutputIs (deliver (.ok (frameOf p)) s) (frameOf p) :=
  outputIs_deliver (by rw [length_frameOf]; omega) s

/-- FRAME succeeds on no payload over 254 bytes, and its result is the frame of the payload (R70, R71, R62). -/
theorem frame_success {s t : State} {p : List Byte} (hp : InputIs s p) (hnext : exec .frame s = .next t)
    (hok : t.errCode = 0x00) : p.length ≤ 254 ∧ OutputIs t (frameOf p) := by
  by_cases hl : p.length ≤ 254
  · rw [exec_frame_ok hp hl] at hnext
    cases hnext
    exact ⟨hl, outputIs_deliver_frameOf s hl⟩
  · obtain ⟨code, hcode, hexec⟩ := exec_frame_long hp (by omega)
    rw [hexec] at hnext
    cases hnext
    exact absurd (toByte_eq_zero.mp hok) hcode

/-- Settles O20: the completion step is `complete .encoding`, which touches neither memory nor OUT_LEN. -/
theorem frameRefusesALongPayload : Obligations.FrameRefusesALongPayload := by
  intro s p hp hlong hl hout
  exact ⟨complete .encoding s, exec_frame_encoding hp hlong hl, completedWith_complete .encoding s, fun _ => rfl, hout,
    commandFrame_complete .encoding s, rfl, rfl⟩

/-- Settles O21: the result is `frameOf p`, so each equation is one about its bytes. -/
theorem frameInvariants : Obligations.FrameInvariants := by
  intro s t p hp hnext hok
  obtain ⟨hl, hresult⟩ := frame_success hp hnext hok
  have ⟨hlen, hbytes⟩ := hresult
  rw [length_frameOf] at hlen hbytes
  refine ⟨?_, by omega, ?_, fun i hi => ?_, hlen, frameOf p, hresult, fold_frameOf_drop_two p⟩
  · rw [hbytes 1 (by omega), frameOf_lengthByte]
  · rw [hbytes _ (by omega), Nat.add_comm, frameOf_getElem?_two_add, List.getElem?_concat_length]
  · rw [hbytes _ (by omega), frameOf_getElem?_two_add, List.getElem?_append_left hi]

/-- R73 on the bytes: with the reply header in place of its own, a frame is an accepted reply without a tail. -/
theorem unframeBytes_frameOf {p : List Byte} (hl : p.length ≤ 254) :
    unframeBytes ((frameOf p).set 0 0xAA) = .ok p := by
  have hreply : (frameOf p).set 0 0xAA = [0xAA, BitVec.ofNat 8 (p.length + 1)] ++ p ++ [fold p] ++ [] := by
    simp [frameOf]
  rw [hreply, unframeBytes_frame hl]

/-- Settles O22: FRAME's result is `frameOf p`, and UNFRAME's rule inverts it. -/
theorem unframeInvertsFrame : Obligations.UnframeInvertsFrame := by
  intro s t u p f hp hl hnext hf hu
  rw [exec_frame_ok hp hl] at hnext
  cases hnext
  obtain rfl := outputIs_unique hf (outputIs_deliver_frameOf s hl)
  have hexec : exec .unframe u = .next (deliver (.ok p) u) := by
    rw [exec_command_eq (.inr (.inl rfl)) hu (by rw [List.length_set, length_frameOf]; omega), commandRule,
      unframeBytes_frameOf hl]
  have hresult : OutputIs (deliver (.ok p) u) p := outputIs_deliver (by omega) u
  exact ⟨_, hexec, rfl, hresult, hresult.1⟩

end Sys2Proof.Proofs
end

section
/-! R76 to R81, UNFRAME's rule on the bytes of a reply: an equation for each outcome, when a reply is accepted, and the
replies whose length byte leaves no payload. -/

namespace Sys2Proof.Proofs

open Sys2Proof.Machine Sys2Proof.Laws

/-- R77: the reply ends before its length byte or before the checksum index that the length byte declares. -/
theorem unframeBytes_short {r : List Byte} (h0 : r[0]? = some 0xAA)
    (hshort : r.length < 2 ∨ ∃ n : Byte, r[1]? = some n ∧ r.length < n.toNat + 2) :
    unframeBytes r = .error .short := by
  rcases hshort with hlen | ⟨n, h1, hlen⟩
  · exact unframeBytes_noLength h0 (List.getElem?_eq_none (by omega))
  · rw [unframeBytes_length h0 h1, if_pos hlen]

theorem unframeBytes_checksum {r : List Byte} {n : Byte} (h0 : r[0]? = some 0xAA) (h1 : r[1]? = some n)
    (hlen : n.toNat + 2 ≤ r.length) (hsum : r[n.toNat + 1]? ≠ some (fold (slice r 2 (n.toNat + 1)))) :
    unframeBytes r = .error .checksum := by
  rw [unframeBytes_length h0 h1, if_neg (by omega), if_pos hsum]

theorem unframeBytes_ok {r : List Byte} {n : Byte} (h0 : r[0]? = some 0xAA) (h1 : r[1]? = some n)
    (hlen : n.toNat + 2 ≤ r.length) (hsum : r[n.toNat + 1]? = some (fold (slice r 2 (n.toNat + 1)))) :
    unframeBytes r = .ok (slice r 2 (n.toNat + 1)) := by
  rw [unframeBytes_length h0 h1, if_neg (by omega), if_neg (not_not_intro hsum)]

/-- An accepted reply has a good header and holds the whole frame that its length byte declares (R76, R77). -/
theorem unframeBytes_accepted {r q : List Byte} (h : unframeBytes r = .ok q) :
    r[0]? = some 0xAA ∧ ∃ n : Byte, r[1]? = some n ∧ n.toNat + 2 ≤ r.length := by
  by_cases h0 : r[0]? = some 0xAA
  · refine ⟨h0, ?_⟩
    cases h1 : r[1]? with
    | none => rw [unframeBytes_noLength h0 h1] at h; cases h
    | some n =>
      refine ⟨n, rfl, not_lt.mp fun hlen => ?_⟩
      rw [unframeBytes_short h0 (.inr ⟨n, h1, hlen⟩)] at h
      cases h
  · rw [unframeBytes_header h0] at h
    cases h

/-- No reply is refused with the code OK (R75). -/
theorem unframeBytes_ne_error_ok (r : List Byte) : unframeBytes r ≠ .error .ok := by
  intro h
  rcases unframeBytes_error h with h | h | h <;> cases h

/-- The payload region `r[2 : hi]` is empty for `hi ≤ 2`, that is for the length bytes 0 and 1 (R8, R80, R81). -/
theorem slice_two_eq_nil {hi : Nat} (h : hi ≤ 2) (r : List Byte) : slice r 2 hi = [] :=
  List.drop_eq_nil_of_le ((List.length_take_le hi r).trans h)

/-- R80: with length byte 0 the checksum index is that of the length byte itself, which is the fold of no bytes. -/
theorem unframeBytes_lengthZero {r : List Byte} (h0 : r[0]? = some 0xAA) (h1 : r[1]? = some 0x00) :
    unframeBytes r = .ok [] := by
  have hpayload : slice r 2 1 = [] := slice_two_eq_nil (by decide) r
  have hlen : 1 < r.length := (List.getElem?_eq_some_iff.mp h1).1
  rw [← hpayload]
  exact unframeBytes_ok h0 h1 hlen (by simpa [hpayload] using h1)

/-- R81: with length byte 1 the checksum is the byte after it, compared with the fold of no bytes. -/
theorem unframeBytes_lengthOne {r : List Byte} {b : Byte} (h0 : r[0]? = some 0xAA) (h1 : r[1]? = some 0x01)
    (h2 : r[2]? = some b) : unframeBytes r = if b = 0x00 then .ok [] else .error .checksum := by
  have hpayload : slice r 2 2 = [] := slice_two_eq_nil le_rfl r
  have hlen : 2 < r.length := (List.getElem?_eq_some_iff.mp h2).1
  split
  case isTrue hb =>
    rw [← hpayload]
    exact unframeBytes_ok h0 h1 hlen (by simpa [hpayload, hb] using h2)
  case isFalse hb => exact unframeBytes_checksum h0 h1 hlen (by simpa [hpayload, h2] using hb)

/-- A reply accepted with two bytes declares the length 0 (R80). -/
theorem eq_of_unframeBytes_ok_of_length_two {r q : List Byte} (h : unframeBytes r = .ok q) (hlen : r.length = 2) :
    r = [0xAA, 0x00] := by
  obtain ⟨h0, n, h1, hn⟩ := unframeBytes_accepted h
  obtain ⟨a, b, rfl⟩ := List.length_eq_two.mp hlen
  obtain rfl : a = 0xAA := by simpa using h0
  obtain rfl : b = n := by simpa using h1
  have hzero : b = 0x00 := BitVec.eq_of_toNat_eq (by simpa using hn)
  rw [hzero]

/-- R79: UNFRAME's checks and its payload lie within the first `n + 2` bytes of the reply. -/
theorem unframeBytes_take {r : List Byte} {n : Byte} (h1 : r[1]? = some n) (hlen : n.toNat + 2 ≤ r.length) :
    unframeBytes (r.take (n.toNat + 2)) = unframeBytes r := by
  have hbyte {i : Nat} (hi : i < n.toNat + 2) : (r.take (n.toNat + 2))[i]? = r[i]? := List.getElem?_take_of_lt hi
  have hpayload : slice (r.take (n.toNat + 2)) 2 (n.toNat + 1) = slice r 2 (n.toNat + 1) := by
    rw [slice, slice, List.take_take, Nat.min_eq_left (by omega)]
  have hwhole : ¬ r.length < n.toNat + 2 := by omega
  by_cases h0 : r[0]? = some 0xAA
  · have h0' : (r.take (n.toNat + 2))[0]? = some 0xAA := by rw [hbyte (by omega), h0]
    have h1' : (r.take (n.toNat + 2))[1]? = some n := by rw [hbyte (by omega), h1]
    rw [unframeBytes_length h0 h1, unframeBytes_length h0' h1', hbyte (by omega), hpayload, List.length_take,
      Nat.min_eq_left hlen, if_neg hwhole, if_neg (lt_irrefl (n.toNat + 2))]
  · rw [unframeBytes_header h0, unframeBytes_header (by rwa [hbyte (by omega)])]

end Sys2Proof.Proofs
end

section
/-! R75 to R81, UNFRAME's completion step: it delivers what its rule makes of the reply, so what the rule refuses leaves
only the code, and two replies with the same outcome of the rule have the same outcome of the step. -/

namespace Sys2Proof.Proofs

open Sys2Proof.Machine Sys2Proof.Laws

theorem exec_unframe {s : State} {r : List Byte} (hr : InputIs s r) (hl : r.length ≤ 512) :
    exec .unframe s = .next (deliver (unframeBytes r) s) :=
  exec_command_eq (.inr (.inl rfl)) hr hl

/-- R64 for UNFRAME: a refused reply leaves its error code and nothing else. -/
theorem exec_unframe_refused {s : State} {r : List Byte} {code : ErrorCode} (hr : InputIs s r) (hl : r.length ≤ 512)
    (h : unframeBytes r = .error code) :
    ∃ t, exec .unframe s = .next t ∧ CompletedWith t code.toByte ∧ MemoryUnchanged s t ∧ t.outLen = s.outLen ∧
      CommandFrame s t ∧ t.key = s.key ∧ t.keyValid = s.keyValid :=
  ⟨complete code s, by rw [exec_unframe hr hl, h, deliver_error], completedWith_complete code s, fun _ => rfl, rfl,
    commandFrame_complete code s, rfl, rfl⟩

/-- The empty payload is a result of no bytes, so not one byte of memory is written (R80, R81). -/
theorem exec_unframe_empty {s : State} {r : List Byte} (hr : InputIs s r) (hl : r.length ≤ 512)
    (h : unframeBytes r = .ok []) :
    ∃ t, exec .unframe s = .next t ∧ CompletedWith t 0x00 ∧ OutputIs t [] ∧ MemoryUnchanged s t :=
  ⟨deliver (.ok []) s, by rw [exec_unframe hr hl, h], completedWith_deliver_ok [] s, outputIs_deliver (by simp) s,
    fun _ => rfl⟩

/-- UNFRAME completes with OK only on a reply that its rule accepts (R62, R75). -/
theorem unframe_success {s t : State} {r : List Byte} (hr : InputIs s r) (hnext : exec .unframe s = .next t)
    (hok : t.errCode = 0x00) : ∃ q, unframeBytes r = .ok q := by
  rcases command_cases (c := .unframe) (.inr (.inl rfl)) s with ⟨-, h⟩ | ⟨-, -, h⟩ | ⟨p, -, hp, h⟩ <;>
    rw [h] at hnext <;> cases hnext
  · cases (toByte_eq_zero (code := .badLen)).mp hok
  · obtain rfl := inputIs_unique hr hp
    cases hres : unframeBytes r with
    | ok q => exact ⟨q, rfl⟩
    | error code =>
      rw [commandRule, hres] at hok
      obtain rfl : code = .ok := toByte_eq_zero.mp hok
      exact absurd hres (unframeBytes_ne_error_ok r)

/-- Where UNFRAME's rule makes the same of two replies, its step has the same outcome and the same payload, whatever
else the two states hold. -/
theorem exec_unframe_agree {s s' : State} {r r' : List Byte} (hr : InputIs s r) (hr' : InputIs s' r')
    (hl : r.length ≤ 512) (hl' : r'.length ≤ 512) (h : unframeBytes r' = unframeBytes r) :
    ∃ t t', exec .unframe s = .next t ∧ exec .unframe s' = .next t' ∧ t'.errCode = t.errCode ∧
      (t.errCode = 0x00 → ∀ x, OutputIs t x ↔ OutputIs t' x) := by
  refine ⟨_, _, exec_unframe hr hl, exec_unframe hr' hl', ?_, fun hok x => ?_⟩
  · rw [h]
    cases unframeBytes r <;> rfl
  · obtain ⟨q, hq⟩ := unframe_success hr (exec_unframe hr hl) hok
    have hout (u : State) : OutputIs (deliver (.ok q) u) q :=
      outputIs_deliver ((unframeBytes_length_le hq).trans (by decide)) u
    rw [h, hq]
    exact ⟨fun hx => outputIs_unique (hout s) hx ▸ hout s', fun hx => outputIs_unique (hout s') hx ▸ hout s⟩

/-- Settles O24: the header is the first check of UNFRAME's rule. -/
theorem unframeChecksTheHeaderFirst : Obligations.UnframeChecksTheHeaderFirst := by
  intro s r hr hl h0
  exact exec_unframe_refused hr hl (unframeBytes_header h0)

/-- Settles O25: the length check follows the header's, and the step sees nothing of the state but the reply. -/
theorem unframeRefusesAShortReply : Obligations.UnframeRefusesAShortReply := by
  refine ⟨fun s r hr hl h0 hshort => ?_, fun s s' r hr hr' hl => ?_⟩
  · exact exec_unframe_refused hr hl (unframeBytes_short h0 hshort)
  · exact exec_unframe_agree hr hr' hl hl rfl

/-- Settles O26: past the header and length checks, the checksum check is the last that can refuse. -/
theorem unframeChecksTheChecksum : Obligations.UnframeChecksTheChecksum := by
  intro s r n hr hl h0 h1 hlen hsum
  exact exec_unframe_refused hr hl (unframeBytes_checksum h0 h1 hlen hsum)

/-- Settles O27: UNFRAME's rule makes the same of the reply and of its first `n + 2` bytes; the check for unwritten
input (R63) stands before the rule. -/
theorem unframeIgnoresTrailingBytes : Obligations.UnframeIgnoresTrailingBytes := by
  refine ⟨fun s s' r n hr hl h1 hlen hr' => ?_, fun s n i _ _ hi hl hun => ?_⟩
  · exact exec_unframe_agree hr hr' hl ((List.length_take_le' ..).trans hl) (unframeBytes_take h1 hlen.le)
  · exact unwrittenInputFaults .unframe s i (.inr (.inl rfl)) hl hi hun

/-- Settles O28: the length byte 0 is its own checksum, and an accepted reply holds at least the header and the length
byte, which is 0 where nothing follows it. -/
theorem unframeAcceptsLengthZero : Obligations.UnframeAcceptsLengthZero := by
  refine ⟨fun s r hr hl h0 h1 => ?_, fun s t r hr hnext hok => ?_⟩
  · exact exec_unframe_empty hr hl (unframeBytes_lengthZero h0 h1)
  · obtain ⟨q, hq⟩ := unframe_success hr hnext hok
    obtain ⟨-, n, -, hlen⟩ := unframeBytes_accepted hq
    exact ⟨by omega, eq_of_unframeBytes_ok_of_length_two hq⟩

/-- Settles O29: the byte after the length byte 1 is compared with 0, the fold of the empty payload. -/
theorem unframeWithLengthOne : Obligations.UnframeWithLengthOne := by
  refine ⟨fun s b tail hr htail => ?_, fun s hr => ?_⟩
  · have hl : (0xAA :: 0x01 :: b :: tail).length ≤ 512 := by simp only [List.length_cons]; omega
    have hrule := unframeBytes_lengthOne (r := 0xAA :: 0x01 :: b :: tail) rfl rfl rfl
    by_cases hb : b = 0x00
    · rw [if_pos hb] at hrule
      obtain ⟨t, hnext, hdone, hout, -⟩ := exec_unframe_empty hr hl hrule
      exact ⟨t, hnext, fun _ => ⟨hdone, hout⟩, (absurd hb ·)⟩
    · rw [if_neg hb] at hrule
      obtain ⟨t, hnext, hdone, -⟩ := exec_unframe_refused hr hl hrule
      exact ⟨t, hnext, (absurd · hb), fun _ => hdone⟩
  · have hempty : ∃ r, InputIs s r ∧ r.length ≤ 512 ∧ unframeBytes r = .ok [] := by
      rcases hr with hr | hr
      · exact ⟨_, hr, by simp, unframeBytes_lengthZero rfl rfl⟩
      · exact ⟨_, hr, by simp, (unframeBytes_lengthOne rfl rfl rfl).trans (if_pos rfl)⟩
    obtain ⟨r, hr, hl, hrule⟩ := hempty
    obtain ⟨t, hnext, hdone, hout, -⟩ := exec_unframe_empty hr hl hrule
    exact ⟨t, hnext, hdone, hout⟩

end Sys2Proof.Proofs
end

section
/-! R88 to R90, KEYXOR: its completion step with and without a valid key, and that the XOR undoes itself. -/

namespace Sys2Proof.Proofs

open Sys2Proof.Machine Sys2Proof.Laws

@[simp] theorem length_xorBytes (k : Byte) (b : List Byte) : (xorBytes k b).length = b.length := List.length_map ..

/-- R90 on the bytes: XOR with one key twice cancels the key. -/
@[simp] theorem xorBytes_xorBytes (k : Byte) (b : List Byte) : xorBytes k (xorBytes k b) = b := by
  have hcancel : (fun x : Byte => x ^^^ k) ∘ (fun x => x ^^^ k) = id :=
    funext fun x => by simp
  rw [xorBytes, xorBytes, List.map_map, hcancel, List.map_id]

theorem exec_keyxor_valid {s : State} {b : List Byte} (hb : InputIs s b) (hl : b.length ≤ 512)
    (hv : s.keyValid = true) : exec .keyxor s = .next (deliver (.ok (xorBytes s.key b)) (dropKey s)) := by
  rw [exec_command_eq (.inr (.inr (.inr rfl))) hb hl, commandRule, xorWithKey_valid hv]

theorem exec_keyxor_noKey {s : State} {b : List Byte} (hb : InputIs s b) (hl : b.length ≤ 512)
    (hv : s.keyValid = false) : exec .keyxor s = .next (complete .noKey s) := by
  rw [exec_command_eq (.inr (.inr (.inr rfl))) hb hl, commandRule, xorWithKey_noKey hv]

theorem outputIs_deliver_xorBytes (k : Byte) {b : List Byte} (hl : b.length ≤ 512) (s : State) :
    OutputIs (deliver (.ok (xorBytes k b)) s) (xorBytes k b) :=
  outputIs_deliver (by rwa [length_xorBytes]) s

/-- Settles O35: the first result is `xorBytes s.key b`, and the second run XORs it with the same key. -/
theorem keyXorIsAnInvolution : Obligations.KeyXorIsAnInvolution := by
  intro s t u b x hb hl hv hnext hx hu huv hkey
  rw [exec_keyxor_valid hb hl hv] at hnext
  cases hnext
  obtain rfl := outputIs_unique hx (outputIs_deliver_xorBytes s.key hl _)
  have hexec := exec_keyxor_valid hu (by rwa [length_xorBytes]) huv
  rw [hkey, xorBytes_xorBytes] at hexec
  exact ⟨_, hexec, rfl, outputIs_deliver hl _⟩

end Sys2Proof.Proofs
end

section
/-! R86, a failed LOADKEY: it completes with its code in the state whose key is dropped. -/

namespace Sys2Proof.Proofs

open Sys2Proof.Machine Sys2Proof.Laws

theorem exec_loadkey_short {s : State} {info : List Byte} (hi : InputIs s info) (hl : info.length < 5) :
    exec .loadkey s = .next (complete .infoShort (dropKey s)) := by
  rw [exec_command_eq (.inr (.inr (.inl rfl))) hi (by omega), commandRule,
    loadKeyFrom_short (List.getElem?_eq_none (by omega))]

theorem exec_loadkey_badLen {s : State} (h : 512 < s.inLen.toNat) :
    exec .loadkey s = .next (complete .badLen (dropKey s)) :=
  withInput_badLen h

/-- Settles O31: both failures are a completion in `dropKey s`, which differs from `s` in KEY_VALID only. -/
theorem loadKeyFailureDropsTheKey : Obligations.LoadKeyFailureDropsTheKey :=
  ⟨fun s _ hi hl => ⟨_, exec_loadkey_short hi hl, completedWith_complete .infoShort _, rfl, rfl, rfl, fun _ => rfl,
      commandFrame_complete .infoShort (dropKey s)⟩,
    fun _ hlong => ⟨_, exec_loadkey_badLen hlong, completedWith_complete .badLen _, rfl, rfl⟩⟩

end Sys2Proof.Proofs
end

section
/-! R28 and R89, KEY_VALID over a step of the machine: what each command's end makes of it, that a host operation other
than reset keeps it, and once and for all what a step can do to it. -/

namespace Sys2Proof.Proofs

open Sys2Proof.Machine Sys2Proof.Laws

@[simp] theorem CommandEnd.leave_busy (e : CommandEnd) (c : Instr) (s : State) : (e.leave c s).busy = false := by
  cases e <;> rfl

/-- After LOADKEY the key is valid exactly when LOADKEY succeeded (R85, R86). -/
theorem CommandEnd.leave_loadkey_keyValid {e : CommandEnd} (he : e.Of .loadkey) (s : State) :
    (e.leave .loadkey s).keyValid = true ↔ (e.leave .loadkey s).errCode = 0x00 := by
  cases e with
  | failed code => exact iff_of_false nofun fun h => he (toByte_eq_zero.mp h)
  | delivered out => exact absurd rfl he.1
  | keyLoaded k => exact iff_of_true rfl rfl

/-- A successful KEYXOR uses the key up, and a failed one leaves KEY_VALID alone (R88, R89). -/
theorem CommandEnd.leave_keyxor_keyValid {e : CommandEnd} (he : e.Of .keyxor) (s : State) :
    (e.leave .keyxor s).keyValid = if (e.leave .keyxor s).errCode = 0x00 then false else s.keyValid := by
  cases e with
  | failed code => exact (if_neg fun h => he (toByte_eq_zero.mp h)).symm
  | delivered out => rfl
  | keyLoaded k => cases he

/-- The other commands leave KEY_VALID alone (R28). -/
theorem CommandEnd.leave_keyValid_of_ne {e : CommandEnd} {c : Instr} (he : e.Of c) (hload : c ≠ .loadkey)
    (hxor : c ≠ .keyxor) (s : State) : (e.leave c s).keyValid = s.keyValid := by
  cases e with
  | failed code => simp [leave, hload]
  | delivered out => simp [leave, hxor]
  | keyLoaded k => exact absurd he hload

/-- Of the host's operations only reset can change KEY_VALID or end a pending command (R93, R94, R96). -/
theorem hostOp_keeps_keyValid_and_busy {op : HostOp} {s t : State} (h : hostOp op s = .next t) (hop : op ≠ .reset) :
    t.keyValid = s.keyValid ∧ (s.busy = true → t.busy = true) := by
  have hwrite {a : BusAddr} {v : Byte} (hw : exec (.hostWr a v) s = .next t) :
      t.keyValid = s.keyValid ∧ (s.busy = true → t.busy = true) := by
    obtain ⟨-, hvalid, -⟩ := hostWr_frame hw
    obtain ⟨hidle, -⟩ := busWrite_cases (exec_hostWr.mp hw)
    exact ⟨hvalid, by simp [hidle]⟩
  rcases hostOp_cases h with ⟨_, _, -, hw⟩ | ⟨_, -, hr⟩ | ⟨_, _, _, -, -, hw⟩ | ⟨-, rfl⟩ | ⟨hreset, -⟩
  · exact hwrite hw
  · obtain ⟨v, -, rfl⟩ := exec_hostRd.mp hr
    exact ⟨rfl, id⟩
  · exact hwrite hw
  · rw [pollAgain_returnByte]
    exact ⟨rfl, id⟩
  · exact absurd hreset hop

/-- What a step from `s` to `t` can do to KEY_VALID. -/
inductive KeyValidStep (s t : State) : Prop where
  /-- The completion of LOADKEY decides it (R85, R86). -/
  | loadkey (hcmd : s.cmdLast = 0x03) (hbusy : s.busy = true) (hdone : t.busy = false)
      (hvalid : t.keyValid = true ↔ t.errCode = 0x00)
  /-- The completion of KEYXOR clears it if KEYXOR succeeded (R88, R89). -/
  | keyxor (hcmd : s.cmdLast = 0x04) (hbusy : s.busy = true) (hdone : t.busy = false)
      (hvalid : t.keyValid = if t.errCode = 0x00 then false else s.keyValid)
  /-- A reset clears it (R126). -/
  | reset (hop : s.program.head? = some .reset) (hvalid : t.keyValid = false)
  /-- Every other step keeps it, and completes neither of the two commands. -/
  | kept (hvalid : t.keyValid = s.keyValid)
      (hother : s.busy = true → t.busy = false → s.cmdLast ≠ 0x03 ∧ s.cmdLast ≠ 0x04)

/-- The completion of a pending command. -/
theorem keyValidStep_leave {e : CommandEnd} {c : Instr} {s : State} (hbusy : s.busy = true)
    (hc : decode (.command s.cmdLast) = .ok c) (he : e.Of c) : KeyValidStep s (e.leave c s) := by
  rcases decodeCommand_cases hc with ⟨hcmd, rfl⟩ | ⟨hcmd, rfl⟩ | ⟨hcmd, rfl⟩ | ⟨hcmd, rfl⟩
  · exact .kept (e.leave_keyValid_of_ne he nofun nofun s) fun _ _ => by simp [hcmd]
  · exact .kept (e.leave_keyValid_of_ne he nofun nofun s) fun _ _ => by simp [hcmd]
  · exact .loadkey hcmd hbusy (e.leave_busy _ s) (e.leave_loadkey_keyValid he s)
  · exact .keyxor hcmd hbusy (e.leave_busy _ s) (e.leave_keyxor_keyValid he s)

/-- Every step of the machine is one of the four. -/
theorem keyValidStep_of_step {s t : State} (h : step s = .next t) : KeyValidStep s t := by
  obtain ⟨-, ⟨hbusy, c, hc, hexec⟩ | ⟨-, ⟨_, hreserved⟩, rfl⟩ | ⟨-, -, rfl⟩ | ⟨op, rest, hprog, -, hop⟩⟩ := step_cases h
  · have hcommand : IsCommand c := by
      rcases decodeCommand_cases hc with ⟨-, rfl⟩ | ⟨-, rfl⟩ | ⟨-, rfl⟩ | ⟨-, rfl⟩ <;> simp [IsCommand]
    obtain ⟨e, he, rfl, -⟩ := exec_command_next hcommand hexec
    exact keyValidStep_leave hbusy hc he
  · refine .kept rfl fun _ _ => ⟨?_, ?_⟩ <;> intro hcmd <;> rw [hcmd] at hreserved <;> cases hreserved
  · exact .kept rfl fun hbusy hidle => by simp [hbusy] at hidle
  · by_cases hreset : op = .reset
    · subst hreset
      cases hop
      exact .reset (by rw [hprog, List.head?_cons]) rfl
    · obtain ⟨hvalid, hpending⟩ := hostOp_keeps_keyValid_and_busy hop hreset
      exact .kept hvalid fun hbusy hidle => by simp [hpending hbusy] at hidle

/-- Settles O33: KEYXOR without a key only completes, and the clauses about runs are read off the four kinds of step. -/
theorem keyIsValidForOneKeyXor : Obligations.KeyIsValidForOneKeyXor := by
  refine ⟨fun s b hb hl hv => ?_, fun s t h hv ht => ?_, fun s t h hv ht => ?_, fun s t h hbusy hdone => ?_,
    fun _ => rfl⟩
  · exact ⟨complete .noKey s, exec_keyxor_noKey hb hl hv, completedWith_complete .noKey s, fun _ => rfl, rfl, rfl, hv,
      commandFrame_complete .noKey s⟩
  · cases keyValidStep_of_step h with
    | loadkey hcmd hbusy hdone hvalid => exact ⟨hbusy, hdone, hcmd, hvalid.mp ht⟩
    | keyxor _ _ _ hvalid => simp [hv, ht] at hvalid
    | reset _ hvalid => simp [ht] at hvalid
    | kept hvalid => simp [hv, ht] at hvalid
  · cases keyValidStep_of_step h with
    | loadkey hcmd hbusy hdone hvalid =>
      exact .inr (.inl ⟨hbusy, hdone, hcmd, fun hok => by simp [hvalid.mpr hok] at ht⟩)
    | keyxor hcmd hbusy hdone hvalid => exact .inl ⟨hbusy, hdone, hcmd, by simpa [hv, ht] using hvalid⟩
    | reset hop => exact .inr (.inr hop)
    | kept hvalid => simp [hv, ht] at hvalid
  · cases keyValidStep_of_step h with
    | loadkey hcmd _ _ hvalid =>
      exact ⟨by simp [hcmd], fun _ herr => Bool.eq_false_iff.mpr (mt hvalid.mp herr)⟩
    | keyxor hcmd _ _ hvalid => exact ⟨fun _ hok => by rw [hvalid, if_pos hok], by simp [hcmd]⟩
    | reset _ hvalid => exact ⟨fun _ _ => hvalid, fun _ _ => hvalid⟩
    | kept _ hother =>
      obtain ⟨hload, hxor⟩ := hother hbusy hdone
      exact ⟨(absurd · hxor), (absurd · hload)⟩

end Sys2Proof.Proofs
end

section
/-! R110 for any host operation: in the host's turn, pending command or not, a faulting operation leaves its reason in
the fault record and nothing else. -/

namespace Sys2Proof.Proofs

open Sys2Proof.Machine Sys2Proof.Laws

theorem stepRecording_hostOp_of_fault {s : State} {op : HostOp} {rest : List HostOp} {r : Fault}
    (hf : s.faultRecord = none) (hturn : s.busy = false ∨ 0 < s.delay) (hp : s.program = op :: rest)
    (hop : hostOp op (hostTurn rest s) = .fault r) : stepRecording s = { s with faultRecord := some r } := by
  rw [stepRecording_of_fault ((step_host hf hturn hp).trans hop), recordFault_of_none hf]

theorem hostOp_txn {w : TransWord} {i : Instr} (hd : decode (.transaction w) = .ok i) (s : State) :
    hostOp (.txn w) s = exec i s := by
  simp only [hostOp, hd]

end Sys2Proof.Proofs
end

section
/-! R95, the read-only locations: which they are, and that a write to one is WRITE_READ_ONLY. -/

namespace Sys2Proof.Proofs

open Sys2Proof.Machine Sys2Proof.Laws

/-- The locations R95 lists. -/
def isReadOnly : Location → Bool
  | .status | .errcode | .key | .outLenLo | .outLenHi | .outBuf _ => true
  | .cmd | .inLenLo | .inLenHi | .inBuf _ | .reserved => false

/-- The read-only locations of R95, in the bus's own addresses (R22, R40). -/
theorem isReadOnly_locate {a : BusAddr}
    (h : a = 0x001 ∨ a = 0x002 ∨ a = 0x003 ∨ a = 0x006 ∨ a = 0x007 ∨ (0x400 ≤ a ∧ a ≤ 0x5FF)) :
    isReadOnly (locate a) = true := by
  rcases h with rfl | rfl | rfl | rfl | rfl | ⟨hlo, hhi⟩
  iterate 5 · decide
  · rw [locate_outBuf (by bv_omega) (by bv_omega), isReadOnly]

theorem exec_hostWr_readOnly {s : State} {a : BusAddr} (hb : s.busy = false) (ha : isReadOnly (locate a) = true)
    (v : Byte) : exec (.hostWr a v) s = .fault .writeReadOnly := by
  cases hl : locate a with
  | status | errcode | key | outLenLo | outLenHi | outBuf =>
    simp only [exec, execHostWr, busWrite, hb, hl, Bool.false_eq_true, if_false]
  | cmd | inLenLo | inLenHi | inBuf | reserved =>
    rw [hl] at ha
    cases ha

/-- Settles O38: the write faults in any idle state, so also in the one the host's turn leaves; and KEY is none of the
fields a host write may change. -/
theorem readOnlyLocationsRefuseWrites : Obligations.ReadOnlyLocationsRefuseWrites := by
  refine ⟨fun s a v hb haddr => ?_, fun s t a v h => ?_⟩
  · have ha := isReadOnly_locate haddr
    refine ⟨exec_hostWr_readOnly hb ha v, fun rest hf hp => ?_⟩
    have hturn : (hostTurn rest s).busy = false := by rw [hostTurn_busy, hb]
    exact stepRecording_txn_of_fault hf hb hp (decode_writeWord a v) (exec_hostWr_readOnly hturn ha v)
  · obtain ⟨hkey, -⟩ := hostWr_frame h
    exact hkey

end Sys2Proof.Proofs
end

section
/-! R96, access while a command is pending: every transaction but the read of STATUS is BUSY_ACCESS. -/

namespace Sys2Proof.Proofs

open Sys2Proof.Machine Sys2Proof.Laws

theorem exec_hostRd_busy {s : State} {a : BusAddr} (hb : s.busy = true) (ha : a ≠ 0x001) :
    exec (.hostRd a) s = .fault .busyAccess := by
  have hpending : s.busy = true ∧ locate a ≠ .status := ⟨hb, mt locate_eq_status.mp ha⟩
  simp only [exec, execHostRd, busRead, if_pos hpending]

/-- An instruction whose encoding is a transaction word is what that word decodes to (R54). -/
theorem decode_transaction_of_encode {i : Instr} {w : TransWord} (h : encode i = .transaction w) :
    decode (.transaction w) = .ok i := by
  rw [← h]
  cases i with
  | hostWr a v => exact decode_writeWord a v
  | hostRd a => exact decode_readWord a
  | frame | unframe | loadkey | keyxor => cases h

theorem exec_transaction_busy {s : State} {i : Instr} {w : TransWord} (hb : s.busy = true)
    (hw : encode i = .transaction w) (hi : i ≠ .hostRd 0x001) : exec i s = .fault .busyAccess := by
  cases i with
  | hostWr a v => exact exec_hostWr_busy hb a v
  | hostRd a => exact exec_hostRd_busy hb fun ha => hi (congrArg _ ha)
  | frame | unframe | loadkey | keyxor => cases hw

/-- Settles O39: the host's turn leaves the command pending, so the transaction faults there and the step records it. -/
theorem pendingCommandAllowsOnlyStatusReads : Obligations.PendingCommandAllowsOnlyStatusReads := by
  refine fun s hb => ⟨exec_hostWr_busy hb, fun _ => exec_hostRd_busy hb, ⟨statusByte s, exec_readStatus s⟩,
    fun i w rest hf hdelay hp hw hi => ?_⟩
  have hturn : (hostTurn rest s).busy = true := by rw [hostTurn_busy, hb]
  have hop : hostOp (.txn w) (hostTurn rest s) = .fault .busyAccess :=
    (hostOp_txn (decode_transaction_of_encode hw) _).trans (exec_transaction_busy hturn hw hi)
  exact stepRecording_hostOp_of_fault hf (.inr hdelay) hp hop

end Sys2Proof.Proofs
end

section
/-! R97, the bytes that hold no value: `IN[i]` without its written mark, and `OUT[i]` at or past OUT_LEN. -/

namespace Sys2Proof.Proofs

open Sys2Proof.Machine Sys2Proof.Laws

theorem exec_readIn_unwritten {s : State} {i : Nat} (hb : s.busy = false) (h : i < 512) (hw : written s i = false) :
    exec (.hostRd (BitVec.ofNat 11 (0x200 + i))) s = .fault .readUnwritten := by
  have hnone : inByte s i = none := Option.isNone_iff_eq_none.mp (Option.isSome_eq_false_iff.mp hw)
  simp only [exec, execHostRd, busRead_idle hb, locate_in h, hnone]

/-- The test of OUT_LEN stands before the byte is looked at, so a byte of an older result does not matter. -/
theorem exec_readOut_stale {s : State} {i : Nat} (hb : s.busy = false) (h : i < 512) (hl : s.outLen.toNat ≤ i) :
    exec (.hostRd (BitVec.ofNat 11 (0x400 + i))) s = .fault .readStale := by
  simp only [exec, execHostRd, busRead_idle hb, locate_out h, if_neg (Nat.not_lt.mpr hl)]

/-- Settles O40, one read for each of the two buffers. -/
theorem valuelessBytesFaultOnRead : Obligations.ValuelessBytesFaultOnRead :=
  fun _ _ hb h => ⟨exec_readIn_unwritten hb h, exec_readOut_stale hb h⟩

end Sys2Proof.Proofs
end

section
/-! R102, the burn buffer: the two bytes of a checksum as quotients of its number, the layout and the length. -/

namespace Sys2Proof.Proofs

open Sys2Proof.Machine

theorem extractLsb'_high_eq_ofNat (c : BitVec 16) : c.extractLsb' 8 8 = BitVec.ofNat 8 (c.toNat / 256) := by
  apply BitVec.eq_of_toNat_eq
  rw [BitVec.extractLsb'_toNat, BitVec.toNat_ofNat, Nat.shiftRight_eq_div_pow]

theorem extractLsb'_low_eq_ofNat (c : BitVec 16) : c.extractLsb' 0 8 = BitVec.ofNat 8 c.toNat := by
  apply BitVec.eq_of_toNat_eq
  rw [BitVec.extractLsb'_toNat, BitVec.toNat_ofNat, Nat.shiftRight_zero]

theorem burnBuffer_eq (s : List Byte) :
    burnBuffer s =
      s ++ [0x06, 0x1E, BitVec.ofNat 8 ((checksum16 s).toNat / 256), BitVec.ofNat 8 (checksum16 s).toNat] := by
  rw [burnBuffer, extractLsb'_high_eq_ofNat, extractLsb'_low_eq_ofNat, List.append_assoc]
  rfl

theorem length_burnBuffer (s : List Byte) : (burnBuffer s).length = s.length + 4 := by
  rw [burnBuffer_eq, List.length_append]
  rfl

/-- Settles O49: the layout and the length for every seed; the rule's example is the layout at the checksum 0x5137. -/
theorem burnBufferLayout : Obligations.BurnBufferLayout := by
  have hsum : checksum16 [0x11, 0x22] = 0x5137 := by decide
  refine ⟨fun s => ⟨burnBuffer_eq s, length_burnBuffer s⟩, ?_⟩
  rw [burnBuffer_eq, hsum]
  rfl

end Sys2Proof.Proofs
end

section
/-! R126 and R127, reset: whatever state it is asserted in, the block's registers are cleared and its buffers hold no
readable byte. -/

namespace Sys2Proof.Proofs

open Sys2Proof.Machine Sys2Proof.Laws

@[simp] theorem statusByte_applyReset (s : State) : statusByte (applyReset s) = 0x00 := by
  rw [statusByte, applyReset_keyValid, applyReset_err, applyReset_done, applyReset_busy]
  decide

@[simp] theorem written_applyReset (s : State) (i : Nat) : written (applyReset s) i = false := by
  rw [written, inByte, applyReset_mem, read_nil, Option.isSome_none]

/-- The written marks are cleared, so R97 refuses a read of IN_BUF. -/
theorem exec_readIn_applyReset (s : State) {i : Nat} (h : i < 512) :
    exec (.hostRd (BitVec.ofNat 11 (0x200 + i))) (applyReset s) = .fault .readUnwritten :=
  exec_readIn_unwritten (applyReset_busy s) h (written_applyReset s i)

/-- OUT_LEN is 0, so every byte of OUT_BUF is at or past it and R97 refuses its read. -/
theorem exec_readOut_applyReset (s : State) {i : Nat} (h : i < 512) :
    exec (.hostRd (BitVec.ofNat 11 (0x400 + i))) (applyReset s) = .fault .readStale :=
  have hpast : (applyReset s).outLen.toNat ≤ i := Nat.zero_le i
  exec_readOut_stale (applyReset_busy s) h hpast

/-- Settles O57: each register by the law of reset for its field, and each buffer byte by its refused read. -/
theorem resetGivesTheResetValues : Obligations.ResetGivesTheResetValues := fun s =>
  ⟨applyReset_cmdLast s, applyReset_busy s, applyReset_done s, applyReset_err s, applyReset_keyValid s,
    statusByte_applyReset s, applyReset_errCode s, applyReset_key s, applyReset_inLen s, applyReset_outLen s,
    applyReset_faultRecord s, fun i h =>
      ⟨written_applyReset s i, exec_readIn_applyReset s h, exec_readOut_applyReset s h⟩⟩

end Sys2Proof.Proofs
end

section
/-! R51, R52 and R54, decoding against encoding: each undoes the other, and which byte selects which command. -/

namespace Sys2Proof.Proofs

open Sys2Proof.Machine Sys2Proof.Laws

theorem decode_encode (i : Instr) : decode (encode i) = .ok i := by
  cases i with
  | frame | unframe | loadkey | keyxor => rfl
  | hostWr a v => exact decode_writeWord a v
  | hostRd a => exact decode_readWord a

theorem encode_of_decode {e : Encoded} {i : Instr} (h : decode e = .ok i) : encode i = e := by
  cases e with
  | command b => rcases decodeCommand_cases h with ⟨rfl, rfl⟩ | ⟨rfl, rfl⟩ | ⟨rfl, rfl⟩ | ⟨rfl, rfl⟩ <;> rfl
  | transaction w =>
    rcases decodeTransaction_cases h with ⟨rfl, hw⟩ | ⟨rfl, hw⟩
    · exact congrArg Encoded.transaction hw.symm
    · exact congrArg Encoded.transaction hw.symm

/-- Settles O1: a transaction word is rebuilt from the fields it decodes to, a command byte from its whole value. -/
theorem decodeInvertsEncode : Obligations.DecodeInvertsEncode :=
  ⟨decode_encode, fun _ _ => encode_of_decode⟩

theorem decode_eq_ok_iff {e : Encoded} {i : Instr} : decode e = .ok i ↔ e = encode i :=
  ⟨fun h => (encode_of_decode h).symm, fun h => h ▸ decode_encode i⟩

theorem isCommand_of_decode {b : Byte} {c : Instr} (h : decode (.command b) = .ok c) : IsCommand c := by
  rcases decodeCommand_cases h with ⟨-, rfl⟩ | ⟨-, rfl⟩ | ⟨-, rfl⟩ | ⟨-, rfl⟩
  · exact .inl rfl
  · exact .inr (.inl rfl)
  · exact .inr (.inr (.inl rfl))
  · exact .inr (.inr (.inr rfl))

/-- A byte is one of the four opcodes or reserved (R51, R52). -/
theorem commandByte_cases (b : Byte) :
    (b = 0x01 ∨ b = 0x02 ∨ b = 0x03 ∨ b = 0x04) ∨ (b = 0x00 ∨ 0x05 ≤ b) := by
  bv_omega

/-- Settles O3: a byte decodes to the command whose opcode it is, and to the error when it is none of the four. -/
theorem commandByteIsTheWholeOpcode : Obligations.CommandByteIsTheWholeOpcode := by
  have hcommand {b op : Byte} {c : Instr} (hop : encode c = .command op) : decode (.command b) = .ok c ↔ b = op := by
    rw [decode_eq_ok_iff, hop, Encoded.command.injEq]
  refine fun b => ⟨hcommand rfl, hcommand rfl, hcommand rfl, hcommand rfl, fun h => ?_, decodeCommand_reserved⟩
  rcases commandByte_cases b with (rfl | rfl | rfl | rfl) | hreserved
  iterate 4 · cases h
  · exact hreserved

/-- Settles O4: each word is the built word of its operation; the table's numbers are read as such words. -/
theorem specProgramWordsDecode : Obligations.SpecProgramWordsDecode :=
  ⟨decode_writeWord 0x206 0x2A, decode_writeWord 0x004 0x08, decode_writeWord 0x000 0x04, decode_readWord 0x007,
    decode_readWord 0x409, rfl, rfl, rfl, rfl, by decide, by decide⟩

end Sys2Proof.Proofs
end

section
/-! The invariant (R26, R27, R29, R31, R60, R64): what it says of OUT_BUF and OUT_LEN alone, and that each operation
of the block and of the host keeps it. -/

namespace Sys2Proof.Proofs

open Sys2Proof.Machine Sys2Proof.Laws

/-- The part of the invariant about the memory and the result, which is all that a completion takes over from the
state before it. -/
structure StorageInv (s : State) : Prop where
  memCanonical : s.mem.wf
  memInBuffers : ∀ c ∈ s.mem, Config.inBase ≤ c.1 ∧ c.1 < Config.outBase + Config.bufSize
  outLenBound : s.outLen.toNat ≤ Config.bufSize
  resultHeld : ∀ i, i < s.outLen.toNat → (outByte s i).isSome = true

theorem inv_storage {s : State} (h : s.Inv) : StorageInv s :=
  ⟨h.memCanonical, h.memInBuffers, h.outLenBound, h.resultHeld⟩

theorem toByte_le (code : ErrorCode) : code.toByte ≤ 0x08 := by
  cases code <;> decide

/-- A completion sets every flag the invariant speaks of, which leaves the absent result after an error (R61, R64). -/
theorem inv_complete {s : State} {code : ErrorCode} (h : StorageInv s) (hfail : code ≠ .ok → s.outLen = 0) :
    (complete code s).Inv where
  memCanonical := h.memCanonical
  memInBuffers := h.memInBuffers
  errIffCode := errFlag_eq_true
  codeIsOneOfNine := toByte_le code
  errImpliesDone _ := rfl
  outLenBound := h.outLenBound
  resultHeld := h.resultHeld
  pendingIsClean := nofun
  onlyPendingIsDelayed _ := rfl
  failedLeavesNothing herr := hfail fun hok => errFlag_eq_true.mp herr (toByte_eq_zero.mpr hok)

/-- A delivered result lies in OUT_BUF, where OUT_LEN says (R31, R64). -/
theorem inv_deliver_ok {s : State} {out : List Byte} (h : StorageInv s) (hl : out.length ≤ 512) :
    (deliver (.ok out) s).Inv := by
  have hresult := outputIs_deliver hl s
  refine inv_complete ⟨wf_writeSeq h.memCanonical _ _, fun c hc => ?_, ?_, fun i hi => ?_⟩ (absurd rfl)
  · rcases mem_writeSeq hc with hc | ⟨hlo, hhi⟩
    · exact h.memInBuffers c hc
    · simp only [Config.inBase, Config.outBase, Config.bufSize] at hlo hhi ⊢
      omega
  · exact hresult.1.trans_le hl
  · have hi' : i < out.length := hi.trans_eq hresult.1
    have hbyte : outByte (deliver (.ok out) s) i = some out[i] :=
      (hresult.2 i hi').trans (List.getElem?_eq_getElem hi')
    exact Option.isSome_iff_exists.mpr ⟨_, hbyte⟩

/-- However a pending command ends, the invariant holds after it: it started with OUT_LEN 0 (R60). -/
theorem inv_leave {e : CommandEnd} {c : Instr} {s : State} (he : e.Of c) (h : s.Inv) (hb : s.busy = true) :
    (e.leave c s).Inv := by
  have hs := inv_storage h
  have hdrop : StorageInv (dropKey s) := ⟨hs.memCanonical, hs.memInBuffers, hs.outLenBound, hs.resultHeld⟩
  have hout : s.outLen = 0 := (h.pendingIsClean hb).2
  cases e with
  | failed code =>
    simp only [CommandEnd.leave]
    split
    · exact inv_complete hdrop fun _ => hout
    · exact inv_complete hs fun _ => hout
  | delivered out =>
    simp only [CommandEnd.leave]
    split
    · exact inv_deliver_ok hdrop he.2
    · exact inv_deliver_ok hs he.2
  | keyLoaded k =>
    exact inv_complete ⟨hs.memCanonical, hs.memInBuffers, hs.outLenBound, hs.resultHeld⟩ (absurd rfl)

/-- The invariant says nothing of the host's side but that only a pending command is delayed. -/
theorem inv_of_sameBlock {s t : State} (h : s.Inv) (hsame : SameBlock s t) (hdelay : t.busy = false → t.delay = 0) :
    t.Inv := by
  obtain ⟨-, hbusy, hdone, herr, -, hcode, -, -, hout, hmem, -⟩ := hsame
  refine ⟨?_, ?_, ?_, ?_, ?_, ?_, fun i => ?_, ?_, hdelay, ?_⟩
  · rw [hmem]; exact h.memCanonical
  · rw [hmem]; exact h.memInBuffers
  · rw [herr, hcode]; exact h.errIffCode
  · rw [hcode]; exact h.codeIsOneOfNine
  · rw [herr, hdone]; exact h.errImpliesDone
  · rw [hout]; exact h.outLenBound
  · rw [hout, outByte, hmem]; exact h.resultHeld i
  · rw [hbusy, hdone, hout]; exact h.pendingIsClean
  · rw [herr, hout]; exact h.failedLeavesNothing

theorem inv_hostTurn {s : State} (h : s.Inv) (rest : List HostOp) : (hostTurn rest s).Inv := by
  refine inv_of_sameBlock h (by simp [SameBlock]) fun hidle => ?_
  rw [hostTurn_busy] at hidle
  rw [hostTurn_delay, hidle, h.onlyPendingIsDelayed hidle]
  rfl

theorem inv_returnByte {s : State} (h : s.Inv) (v : Byte) : (returnByte v s).Inv :=
  inv_of_sameBlock h (by simp [SameBlock]) h.onlyPendingIsDelayed

theorem inv_pollAgain_returnByte {s : State} (h : s.Inv) (v : Byte) : (pollAgain (returnByte v s)).Inv := by
  rw [pollAgain_returnByte]
  exact inv_of_sameBlock h (by simp [SameBlock]) h.onlyPendingIsDelayed

theorem inv_startCommand {s : State} (h : s.Inv) (v : Byte) : (startCommand v s).Inv where
  memCanonical := h.memCanonical
  memInBuffers := h.memInBuffers
  errIffCode := by simp
  codeIsOneOfNine := by simp
  errImpliesDone := nofun
  outLenBound := by simp
  resultHeld := by simp
  pendingIsClean _ := ⟨rfl, rfl⟩
  onlyPendingIsDelayed := nofun
  failedLeavesNothing _ := rfl

theorem inv_setInLen {s : State} (h : s.Inv) (l : Len) : { s with inLen := l }.Inv :=
  ⟨h.memCanonical, h.memInBuffers, h.errIffCode, h.codeIsOneOfNine, h.errImpliesDone, h.outLenBound, h.resultHeld,
    h.pendingIsClean, h.onlyPendingIsDelayed, h.failedLeavesNothing⟩

/-- A byte written to IN_BUF lies below OUT_BUF, so the result stays as it is (R30, R31). -/
theorem inv_writeIn {s : State} (h : s.Inv) {i : Nat} (hi : i < 512) (v : Byte) :
    { s with mem := s.mem.write (Config.inBase + i) v }.Inv := by
  refine ⟨wf_write h.memCanonical _ _, fun c hc => ?_, h.errIffCode, h.codeIsOneOfNine, h.errImpliesDone,
    h.outLenBound, fun j hj => ?_, h.pendingIsClean, h.onlyPendingIsDelayed, h.failedLeavesNothing⟩
  · rcases mem_write hc with hc | rfl
    · exact h.memInBuffers c hc
    · simp only [Config.inBase, Config.outBase, Config.bufSize]
      omega
  · have hbelow : Config.outBase + j ≠ Config.inBase + i := by
      simp only [Config.inBase, Config.outBase]
      omega
    simp only [outByte, read_write, if_neg hbelow]
    exact h.resultHeld j hj

theorem inv_hostWr {s t : State} {a : BusAddr} {v : Byte} (h : s.Inv) (hw : exec (.hostWr a v) s = .next t) :
    t.Inv := by
  obtain ⟨-, ⟨-, rfl⟩ | ⟨-, rfl⟩ | ⟨-, rfl⟩ | ⟨i, hloc, rfl⟩⟩ := busWrite_cases (exec_hostWr.mp hw)
  · exact inv_startCommand h v
  · exact inv_setInLen h _
  · exact inv_setInLen h _
  · exact inv_writeIn h (locate_eq_inBuf.mp hloc).2 v

/-- Reset establishes the invariant, whatever state it is asserted in (R126). -/
theorem inv_applyReset (s : State) : (applyReset s).Inv where
  memCanonical := List.Pairwise.nil
  memInBuffers := nofun
  errIffCode := by simp
  codeIsOneOfNine := by simp
  errImpliesDone := nofun
  outLenBound := by simp
  resultHeld := by simp
  pendingIsClean := nofun
  onlyPendingIsDelayed _ := rfl
  failedLeavesNothing := nofun

theorem inv_hostOp {op : HostOp} {s t : State} (h : s.Inv) (hop : hostOp op s = .next t) : t.Inv := by
  rcases hostOp_cases hop with ⟨_, _, -, hw⟩ | ⟨_, -, hr⟩ | ⟨_, _, _, -, -, hw⟩ | ⟨-, rfl⟩ | ⟨-, rfl⟩
  · exact inv_hostWr h hw
  · obtain ⟨v, -, rfl⟩ := exec_hostRd.mp hr
    exact inv_returnByte h v
  · exact inv_hostWr h hw
  · exact inv_pollAgain_returnByte h _
  · exact inv_applyReset s

/-- Settles O47: the block's step ends a command that started clean, and each host operation keeps the invariant. -/
theorem everyStepKeepsTheInvariant : Obligations.EveryStepKeepsTheInvariant := by
  intro s t h hstep
  obtain ⟨-, ⟨hbusy, c, hc, hexec⟩ | ⟨hbusy, -, rfl⟩ | ⟨-, -, rfl⟩ | ⟨op, rest, -, -, hop⟩⟩ := step_cases hstep
  · obtain ⟨e, he, rfl, -⟩ := exec_command_next (isCommand_of_decode hc) hexec
    exact inv_leave he h hbusy
  · exact inv_complete (inv_storage h) fun _ => (h.pendingIsClean hbusy).2
  · exact h
  · exact inv_hostOp (inv_hostTurn h rest) hop

/-- Settles O46: the state after reset is a reset of itself. -/
theorem resetStateMeetsTheInvariant : Obligations.ResetStateMeetsTheInvariant :=
  ⟨inv_applyReset State.reset, rfl, statusByte_applyReset State.reset, rfl, rfl, rfl, rfl, rfl⟩

end Sys2Proof.Proofs
end

section
/-! R47, R60 and R66, whose step it is: the host's transaction, the pending command, and an instruction placed where the
next step runs it. -/

namespace Sys2Proof.Proofs

open Sys2Proof.Machine Sys2Proof.Laws

/-- Settles O6: on the host's turn the step is its next operation, and the decoder's answer is what it runs. -/
theorem stepRunsHostTransaction : Obligations.StepRunsHostTransaction := by
  intro s w rest hf hturn hp
  refine ⟨fun i hi => ?_, fun hi => ?_⟩
  · rw [step_host hf hturn hp, hostOp_txn hi, hostTurn]
  · simp only [step_host hf hturn hp, hostOp, hi]

theorem blockStep_command {s : State} {c : Instr} (h : decode (.command s.cmdLast) = .ok c) :
    blockStep s = exec c s := by
  simp only [blockStep, h]

/-- Settles O7: on the block's turn the step is the block's, which runs what CMD_LAST decodes to. -/
theorem stepRunsPendingCommand : Obligations.StepRunsPendingCommand := by
  intro s i hf hb hd hi
  rw [step_block hf hb hd, blockStep_command hi]

theorem decodeTableWord_eq_some {nbits w : Nat} {i : Instr} (h : decodeTableWord nbits w = some i) :
    ∃ e, encodedOfTableWord nbits w = some e ∧ decode e = .ok i := by
  unfold decodeTableWord at h
  split at h
  · next e he =>
    refine ⟨e, he, ?_⟩
    cases hd : decode e with
    | ok j => rw [hd] at h; cases h; rfl
    | error r => rw [hd] at h; cases h
  · cases h

/-- The width of a table word tells a command byte from a transaction word (log entry 8). -/
theorem encodedOfTableWord_cases {nbits w : Nat} {e : Encoded} (h : encodedOfTableWord nbits w = some e) :
    (nbits ≤ 8 ∧ ∃ b, e = .command b) ∨ (8 < nbits ∧ ∃ w, e = .transaction w) := by
  unfold encodedOfTableWord at h
  split at h
  · next hn =>
    split at h <;> cases h
    exact .inl ⟨hn, _, rfl⟩
  · next hn =>
    split at h
    · split at h <;> cases h
      exact .inr ⟨by omega, _, rfl⟩
    · cases h

/-- A placed command is pending with no delay left, so the next step is the block's. -/
theorem step_place_command {b : Byte} {i : Instr} (h : decode (.command b) = .ok i) (s : State) :
    step (place (.command b) s) = exec i (place (.command b) s) :=
  stepRunsPendingCommand _ i rfl rfl (.inl rfl) h

/-- A placed transaction stands at the head of the host's program, with a delay that its own step uses up. -/
theorem step_place_transaction {w : TransWord} {i : Instr} (h : decode (.transaction w) = .ok i) (s : State) :
    step (place (.transaction w) s) = exec i { s with faultRecord := none } := by
  have hturn : (place (.transaction w) s).busy = false ∨ 0 < (place (.transaction w) s).delay := by
    cases hb : s.busy <;> simp [place, hb]
  have htaken : hostTurn s.program (place (.transaction w) s) = { s with faultRecord := none } := by
    cases hb : s.busy <;> simp [place, hostTurn, hb]
  rw [step_host rfl hturn rfl, htaken, hostOp_txn h]

/-- Settles O8: the word's width says which of the two placings it is. -/
theorem stepRunsPlacedInstruction : Obligations.StepRunsPlacedInstruction := by
  intro s nbits w i h
  obtain ⟨e, he, hd⟩ := decodeTableWord_eq_some h
  have hplace : s.withFetchWord nbits w = place e s := by simp only [State.withFetchWord, he]
  rw [hplace]
  rcases encodedOfTableWord_cases he with ⟨hn, b, rfl⟩ | ⟨hn, t, rfl⟩
  · exact ⟨fun _ => step_place_command hd s, fun hn' => by omega⟩
  · exact ⟨fun hn' => by omega, fun _ => step_place_transaction hd s⟩

end Sys2Proof.Proofs
end

section
/-! R56 and R66, the other host operations: `wr A, t`, the polls of `wait`, and having nothing to do. -/

namespace Sys2Proof.Proofs

open Sys2Proof.Machine Sys2Proof.Laws

/-- One poll: STATUS is read and, while BUSY is 1, `wait` stays where it is (R56). -/
theorem step_wait {s : State} {rest : List HostOp} (hf : s.faultRecord = none)
    (hturn : s.busy = false ∨ 0 < s.delay) (hp : s.program = .wait :: rest) :
    step s = .next { hostTurn rest s with
      hostReads := statusByte s :: s.hostReads, program := if s.busy then .wait :: rest else rest } := by
  have hstatus : statusByte (hostTurn rest s) = statusByte s := rfl
  simp only [step_host hf hturn hp, hostOp, exec_readStatus, andThen_next, pollAgain_returnByte, hstatus,
    statusByte_bit0, hostTurn_hostReads, hostTurn_program]

theorem step_wait_pending {s : State} {rest : List HostOp} (hf : s.faultRecord = none) (hb : s.busy = true)
    (hd : 0 < s.delay) (hp : s.program = .wait :: rest) :
    step s = .next { s with delay := s.delay - 1, hostReads := statusByte s :: s.hostReads } := by
  rw [step_wait hf (.inr hd) hp]
  simp [hostTurn, hb, hp]

theorem step_wait_idle {s : State} {rest : List HostOp} (hf : s.faultRecord = none) (hb : s.busy = false)
    (hp : s.program = .wait :: rest) :
    step s = .next { s with program := rest, hostReads := statusByte s :: s.hostReads } := by
  rw [step_wait hf (.inl hb) hp]
  simp [hostTurn, hb]

/-- Settles O9, one law of the host's step for each operation. -/
theorem stepRunsOtherHostOperations : Obligations.StepRunsOtherHostOperations := by
  intro s rest hf hturn
  refine ⟨fun a v vs hp hr => ?_, fun a hp hr => ?_, fun hp hb => ?_, fun hp hb => step_wait_idle hf hb hp,
    fun hp hb => step_idle hf hb hp⟩
  · simp only [step_host hf hturn hp, hostOp, hr, hostTurn]
  · simp only [step_host hf hturn hp, hostOp, hostTurn_hostReads, hr]
  · have hd : 0 < s.delay := hturn.resolve_left (by simp [hb])
    exact step_wait_pending hf hb hd hp

/-- Settles O17, by induction on the delay: each poll uses one of it, and with none left the step is the block's. -/
theorem waitReachesTheBlocksStep : Obligations.WaitReachesTheBlocksStep := by
  intro s rest hf hb hp
  induction hd : s.delay generalizing s with
  | zero =>
    have hsame : { s with delay := 0, hostReads := List.replicate 0 (statusByte s) ++ s.hostReads } = s := by
      cases s; cases hd; rfl
    rw [hsame, runSteps_one, step_block hf hb (.inl hd)]
  | succ d ih =>
    have hpoll := step_wait_pending hf hb (by omega) hp
    have hreads : List.replicate d (statusByte s) ++ statusByte s :: s.hostReads =
        List.replicate (d + 1) (statusByte s) ++ s.hostReads := by
      rw [List.replicate_succ', List.append_assoc, List.singleton_append]
    rw [runSteps, hpoll, andThen_next, ih { s with delay := s.delay - 1, hostReads := statusByte s :: s.hostReads }
      hf hb hp (by simp only [hd, Nat.add_sub_cancel]), ← hreads]
    rfl

end Sys2Proof.Proofs
end

section
/-! R66 and R136, the block's step and the host's side: the step neither reads nor writes what the host has still to do
and has read, so neither the end of a command nor the last STATUS byte depends on the number of polls before it. -/

namespace Sys2Proof.Proofs

open Sys2Proof.Machine Sys2Proof.Laws

/-- The same block beside a host with program `p` whose reads returned `r`. -/
def withHost (p : List HostOp) (r : List Byte) (s : State) : State := { s with program := p, hostReads := r }

theorem CommandEnd.leave_withHost (e : CommandEnd) (c : Instr) (p : List HostOp) (r : List Byte) (s : State) :
    e.leave c (withHost p r s) = withHost p r (e.leave c s) := by
  cases e with
  | failed code => simp only [leave]; split <;> rfl
  | delivered out => simp only [leave]; split <;> rfl
  | keyLoaded k => rfl

/-- The block's step faults, or ends in one state of the block, whatever the host beside it. -/
theorem blockStep_withHost (s : State) :
    (∀ p r, blockStep (withHost p r s) = .fault .uninitInput) ∨
    (∃ t, ∀ p r, blockStep (withHost p r s) = .next (withHost p r t)) := by
  have hsame (p : List HostOp) (r : List Byte) : SameInputs s (withHost p r s) := sameInputs_refl s
  cases hd : decode (.command s.cmdLast) with
  | error e => exact .inr ⟨complete .badCmd s, fun p r => by simp only [blockStep, withHost, hd]; rfl⟩
  | ok c =>
    have hexec (p : List HostOp) (r : List Byte) : blockStep (withHost p r s) = exec c (withHost p r s) :=
      blockStep_command hd
    rcases exec_command_end (isCommand_of_decode hd) s with hfault | ⟨e, -, hend⟩
    · exact .inl fun p r => (hexec p r).trans (hfault _ (hsame p r))
    · exact .inr ⟨e.leave c s, fun p r => by rw [hexec, hend _ (hsame p r), e.leave_withHost]⟩

/-- `wait` to its end: the block's step after the polls, and the poll that sees BUSY = 0. -/
theorem runSteps_wait {s : State} {rest : List HostOp} (hf : s.faultRecord = none) (hb : s.busy = true)
    (hp : s.program = .wait :: rest) (d : Nat) :
    runSteps (d + 2) { s with delay := d } =
      andThen (blockStep (withHost (.wait :: rest) (List.replicate d (statusByte s) ++ s.hostReads)
        { s with delay := 0 })) step := by
  have hblock := waitReachesTheBlocksStep { s with delay := d } rest hf hb hp
  have hhost : withHost (.wait :: rest) (List.replicate d (statusByte s) ++ s.hostReads) { s with delay := 0 } =
      { s with delay := 0, hostReads := List.replicate d (statusByte s) ++ s.hostReads } := by
    rw [← hp]; rfl
  rw [runSteps_add (d + 1) 1, hhost]
  exact congrArg₂ andThen hblock (funext runSteps_one)

/-- Settles O18: the two runs differ in the bytes read before the block's step only, which it does not see. -/
theorem latencyChangesNoResult : Obligations.LatencyChangesNoResult := by
  intro s rest d e hf hb hp
  rw [runSteps_wait hf hb hp d, runSteps_wait hf hb hp e]
  rcases blockStep_withHost { s with delay := 0 } with hfault | ⟨t, hnext⟩
  · rw [hfault, hfault]
    exact ⟨fun r hr => hr, nofun⟩
  · have hcase := blockStep_cases (hnext (.wait :: rest) s.hostReads)
    obtain ⟨hidle, -, -, -, hrecord, -⟩ := hcase
    have hpoll (r : List Byte) : step (withHost (.wait :: rest) r t) = .next (withHost rest (statusByte t :: r) t) :=
      step_wait_idle (hrecord.trans hf) hidle rfl
    rw [hnext, hnext, andThen_next, andThen_next, hpoll, hpoll]
    refine ⟨nofun, fun u hu => ?_⟩
    cases hu
    exact ⟨_, rfl, by simp [SameBlock, withHost], hidle, rfl, rfl⟩

end Sys2Proof.Proofs
end

section
/-! R34, R110 and R125 to R127 over a step: no step leaves a recorded fault, and a reset on the host's turn. -/

namespace Sys2Proof.Proofs

open Sys2Proof.Machine Sys2Proof.Laws

theorem hostStep_cases {s t : State} (h : hostStep s = .next t) :
    (s.program = [] ∧ t = s) ∨ ∃ op rest, s.program = op :: rest ∧ hostOp op (hostTurn rest s) = .next t := by
  unfold hostStep at h
  split at h
  · next hp => cases h; exact .inl ⟨hp, rfl⟩
  · next op rest hp => exact .inr ⟨op, rest, hp, h⟩

theorem hostOp_faultRecord {op : HostOp} {s t : State} (h : hostOp op s = .next t) :
    t.faultRecord = s.faultRecord := by
  have hwrite {a : BusAddr} {v : Byte} (hw : exec (.hostWr a v) s = .next t) : t.faultRecord = s.faultRecord := by
    obtain ⟨-, -, hrecord, -⟩ := hostWr_frame hw
    exact hrecord
  rcases hostOp_cases h with ⟨_, _, -, hw⟩ | ⟨_, -, hr⟩ | ⟨_, _, _, -, -, hw⟩ | ⟨-, rfl⟩ | ⟨-, rfl⟩
  · exact hwrite hw
  · obtain ⟨v, -, rfl⟩ := exec_hostRd.mp hr
    rfl
  · exact hwrite hw
  · rw [pollAgain_returnByte]
  · rfl

/-- A step that is no fault keeps the record, and so leaves it empty (R110). -/
theorem step_faultRecord {s t : State} (h : step s = .next t) : t.faultRecord = s.faultRecord := by
  rcases step_turn h with ⟨-, -, hblock⟩ | ⟨-, hhost⟩
  · obtain ⟨-, -, -, -, hrecord, -⟩ := blockStep_cases hblock
    exact hrecord
  · rcases hostStep_cases hhost with ⟨-, rfl⟩ | ⟨op, rest, -, hop⟩
    · rfl
    · exact (hostOp_faultRecord hop).trans (hostTurn_faultRecord rest s)

/-- Settles O56: the record is the first thing a step looks at, and nothing but a fault writes it. -/
theorem recordedRunIsOver : Obligations.RecordedRunIsOver := by
  refine ⟨fun s r h => ⟨step_faulted h, stepRecording_of_faulted h⟩, fun s t h => ?_⟩
  obtain ⟨hnone, -⟩ := step_cases h
  exact ⟨hnone, (step_faultRecord h).trans hnone⟩

/-- Settles O45: the step is `applyReset` of the state with the operation taken off, and reset clears any state. -/
theorem resetStepLeavesTheResetState : Obligations.ResetStepLeavesTheResetState := by
  intro s rest hf hturn hp
  obtain ⟨hcmd, hbusy, hdone, herr, hvalid, hstatus, hcode, hkey, hin, hout, hrecord, hbytes⟩ :=
    resetGivesTheResetValues (hostTurn rest s)
  exact ⟨applyReset (hostTurn rest s), step_host hf hturn hp, hcmd, hbusy, hdone, herr, hvalid, hstatus, hcode, hkey,
    hin, hout, hbytes, hrecord, rfl, rfl⟩

end Sys2Proof.Proofs
end

section
/-! R61 to R63 and R111: the order of a command's checks, and the codes that each command's own rule names. -/

namespace Sys2Proof.Proofs

open Sys2Proof.Machine Sys2Proof.Laws

/-- Settles O12: the check of IN_LEN stands before the input is looked at; LOADKEY drops its key there. -/
theorem overlongInputCompletesWithBadLen : Obligations.OverlongInputCompletesWithBadLen := by
  intro c s hc hlong
  have hexec : exec c s = .next (complete .badLen (if c = .loadkey then dropKey s else s)) := by
    rw [exec_command hc]
    exact withInput_badLen hlong
  refine ⟨_, hexec, completedWith_complete .badLen _, ?_⟩
  split
  · exact ⟨commandFrame_complete .badLen (dropKey s), fun _ => rfl, rfl, rfl, rfl⟩
  · exact ⟨commandFrame_complete .badLen s, fun _ => rfl, rfl, rfl, rfl⟩

/-- The values of ERRCODE that a command's own rule can leave (R70, R71, R75 to R78, R85, R86, R88, R89). -/
def ruleCodes : Instr → List Byte
  | .frame => [0x00, 0x04]
  | .unframe => [0x00, 0x01, 0x02, 0x03]
  | .loadkey => [0x00, 0x05]
  | .keyxor => [0x00, 0x06]
  | .hostWr _ _ => []
  | .hostRd _ => []

theorem commandRule_errCode {c : Instr} (hc : IsCommand c) (p : List Byte) (s : State) :
    (commandRule c p s).errCode ∈ ruleCodes c := by
  rcases hc with rfl | rfl | rfl | rfl
  case inl =>
    rw [commandRule]
    cases hp : frameBytes p with
    | ok out => exact .head _
    | error code => rw [frameBytes_error hp]; exact .tail _ (.head _)
  case inr.inl =>
    rw [commandRule]
    cases hp : unframeBytes p with
    | ok out => exact .head _
    | error code =>
      rw [deliver_error, complete_errCode]
      rcases unframeBytes_error hp with rfl | rfl | rfl <;> decide
  case inr.inr.inl =>
    rcases loadKeyFrom_cases p s with ⟨-, h⟩ | ⟨k, -, h⟩ <;> rw [commandRule, h]
    · exact .tail _ (.head _)
    · exact .head _
  case inr.inr.inr =>
    rcases xorWithKey_cases p s with ⟨-, h⟩ | ⟨-, h⟩ <;> rw [commandRule, h]
    · exact .head _
    · exact .tail _ (.head _)

/-- The byte that is not reserved selects a command (R51). -/
theorem decode_command_of_range {b : Byte} (hlo : 0x01 ≤ b) (hhi : b ≤ 0x04) : ∃ c, decode (.command b) = .ok c := by
  rcases commandByte_cases b with (rfl | rfl | rfl | rfl) | hreserved
  iterate 4 · exact ⟨_, rfl⟩
  · bv_omega

theorem exists_input_of_written {s : State} (h : ∀ i, i < s.inLen.toNat → written s i = true) :
    ∃ p, InputIs s p := by
  cases hin : input s with
  | some p => exact ⟨p, input_eq_some.mp hin⟩
  | none =>
    obtain ⟨i, hi, hun⟩ := input_eq_none.mp hin
    rw [h i hi] at hun
    cases hun

/-- Settles O14: the block's step of a reserved byte, and for a command the three ends of the common checks. -/
theorem pendingCommandIsCheckedInOrder : Obligations.PendingCommandIsCheckedInOrder := by
  intro s hf hb hd
  have hblock : step s = blockStep s := step_block hf hb (.inl hd)
  refine ⟨fun hreserved => ?_, fun hlo hhi => ?_⟩
  · exact ⟨_, hblock.trans (blockStep_reserved hreserved), completedWith_complete .badCmd s⟩
  obtain ⟨c, hdec⟩ := decode_command_of_range hlo hhi
  have hc := isCommand_of_decode hdec
  have hexec : step s = exec c s := hblock.trans (blockStep_command hdec)
  refine ⟨fun hlong => ?_, fun hlen ⟨i, hi, hun⟩ => ?_, fun hlen hwritten => ?_⟩
  · obtain ⟨t, hnext, hdone, -⟩ := overlongInputCompletesWithBadLen c s hc hlong
    exact ⟨t, hexec.trans hnext, hdone⟩
  · exact hexec.trans (unwrittenInputFaults c s i hc hlen hi hun)
  · obtain ⟨p, hp⟩ := exists_input_of_written hwritten
    have hnext : step s = .next (commandRule c p s) := hexec.trans (exec_command_eq hc hp (hp.1 ▸ hlen))
    obtain ⟨hidle, -, -, -, -, hdone⟩ := blockStep_cases (hblock.symm.trans hnext)
    have hcode {op : Byte} {c' : Instr} (hop : decode (.command op) = .ok c') (hcmd : s.cmdLast = op) :
        (commandRule c p s).errCode ∈ ruleCodes c' := by
      obtain rfl : c = c' := Except.ok.inj (hdec.symm.trans (hcmd ▸ hop))
      exact commandRule_errCode hc p s
    refine ⟨_, hnext, hidle, hdone, fun h => ?_, fun h => ?_, fun h => ?_, fun h => ?_⟩
    · simpa [ruleCodes] using hcode rfl h
    · simpa [ruleCodes] using hcode rfl h
    · simpa [ruleCodes] using hcode rfl h
    · simpa [ruleCodes] using hcode rfl h

end Sys2Proof.Proofs
end

section
/-! R70, R75, R85 and R88, the commands that complete with OK: the result, and the frame. -/

namespace Sys2Proof.Proofs

open Sys2Proof.Machine Sys2Proof.Laws

/-- Settles O19: FRAME delivers `frameOf p`, and a delivery writes OUT_BUF, OUT_LEN and the completion's flags only. -/
theorem frameWrapsThePayload : Obligations.FrameWrapsThePayload := by
  intro s p hp hl
  have hmem := memoryUnchangedOutside_deliver (frameOf p) s
  rw [length_frameOf] at hmem
  exact ⟨_, exec_frame_ok hp hl, completedWith_deliver_ok _ s, outputIs_deliver_frameOf s hl,
    commandFrame_deliver _ s, rfl, rfl, hmem⟩

/-- Settles O23: the rule accepts the reply whatever follows its checksum, and the step delivers the payload. -/
theorem unframeStripsTheEnvelope : Obligations.UnframeStripsTheEnvelope := by
  intro s q tail hr hq hl
  have hexec : exec .unframe s = .next (deliver (.ok q) s) := by
    rw [exec_unframe hr (by simp; omega), unframeBytes_frame hq]
  exact ⟨_, hexec, completedWith_deliver_ok q s, outputIs_deliver (by omega) s, commandFrame_deliver _ s, rfl, rfl,
    memoryUnchangedOutside_deliver q s⟩

/-- Settles O30: with a byte at index 4 the rule of LOADKEY completes with it as KEY. -/
theorem loadKeyTakesTheFifthByte : Obligations.LoadKeyTakesTheFifthByte := by
  intro s info k hi _ hl hk
  have hexec : exec .loadkey s = .next (complete .ok { s with key := k, keyValid := true }) := by
    rw [exec_command_eq (.inr (.inr (.inl rfl))) hi hl, commandRule, loadKeyFrom_key hk]
  exact ⟨_, hexec, completedWith_complete .ok _, rfl, rfl, rfl, fun _ => rfl, by simp [CommandFrame]⟩

/-- Settles O32: KEYXOR delivers `xorBytes s.key b` in the state whose key is dropped. -/
theorem keyXorMasksTheBuffer : Obligations.KeyXorMasksTheBuffer := by
  intro s b hb hl hv
  have hmem := memoryUnchangedOutside_deliver (xorBytes s.key b) (dropKey s)
  rw [length_xorBytes] at hmem
  exact ⟨_, exec_keyxor_valid hb hl hv, completedWith_deliver_ok _ _, outputIs_deliver_xorBytes s.key hl _, rfl, rfl,
    commandFrame_deliver _ (dropKey s), hmem⟩

end Sys2Proof.Proofs
end

section
/-! R93 and R94, host accesses that are performed: the byte a read returns, the byte a write stores (R45: and nothing
else), and that either twice is once. -/

namespace Sys2Proof.Proofs

open Sys2Proof.Machine Sys2Proof.Laws

theorem exec_hostRd_of_busRead {s : State} {a : BusAddr} {v : Byte} (h : busRead s a = .ok v) :
    exec (.hostRd a) s = .next { s with hostReads := v :: s.hostReads } :=
  exec_hostRd.mpr ⟨v, h, rfl⟩

/-- STATUS as a number: BUSY, DONE, ERR and KEY_VALID are its bits 0 to 3 (R22). -/
theorem toNat_statusByte (s : State) :
    (statusByte s).toNat = s.busy.toNat + 2 * s.done.toNat + 4 * s.err.toNat + 8 * s.keyValid.toNat := by
  unfold statusByte
  cases s.busy <;> cases s.done <;> cases s.err <;> cases s.keyValid <;> rfl

theorem lenLo_eq_ofNat (l : Len) : lenLo l = BitVec.ofNat 8 l.toNat := by
  apply BitVec.eq_of_toNat_eq
  rw [toNat_lenLo, BitVec.toNat_ofNat]

theorem lenHi_eq_ofNat (l : Len) : lenHi l = BitVec.ofNat 8 (l.toNat / 256) := by
  apply BitVec.eq_of_toNat_eq
  have hl := l.isLt
  rw [toNat_lenHi, BitVec.toNat_ofNat]
  omega

theorem exec_readIn {s : State} (hb : s.busy = false) {i : Nat} (hi : i < 512) {v : Byte}
    (hv : inByte s i = some v) :
    exec (.hostRd (BitVec.ofNat 11 (0x200 + i))) s = .next { s with hostReads := v :: s.hostReads } :=
  exec_hostRd_of_busRead (by simp only [busRead_idle hb, locate_in hi, hv])

/-- Settles O36: a read of STATUS is always possible, and on an idle block each location returns its own byte. -/
theorem hostReadReturnsTheByte : Obligations.HostReadReturnsTheByte := by
  refine fun s => ⟨⟨statusByte s, exec_readStatus s, toNat_statusByte s⟩, fun hb => ?_⟩
  have hread (a : BusAddr) := busRead_idle hb a
  rw [← lenLo_eq_ofNat, ← lenHi_eq_ofNat, ← lenLo_eq_ofNat, ← lenHi_eq_ofNat]
  exact ⟨exec_hostRd_of_busRead (hread 0x000), exec_hostRd_of_busRead (hread 0x002),
    exec_hostRd_of_busRead (hread 0x003), exec_hostRd_of_busRead (hread 0x004), exec_hostRd_of_busRead (hread 0x005),
    exec_hostRd_of_busRead (hread 0x006), exec_hostRd_of_busRead (hread 0x007), fun i v hi => exec_readIn hb hi,
    fun i v hi hl hv => exec_readOut hb hi hl hv⟩

theorem read_write_same (m : Memory) (a : Nat) (v : Byte) : (m.write a v).read a = some v := by
  rw [read_write, if_pos rfl]

theorem read_write_other (m : Memory) {a b : Nat} (h : b ≠ a) (v : Byte) : (m.write a v).read b = m.read b := by
  rw [read_write, if_neg h]

/-- Settles O37: each write's new value of the one field that it stores to. -/
theorem hostWriteStoresItsByte : Obligations.HostWriteStoresItsByte := by
  refine fun s v hb => ⟨⟨_, exec_writeLenLo hb v, toNat_withLenLo s.inLen v⟩,
    ⟨_, exec_writeLenHi hb v, toNat_withLenHi s.inLen v⟩, fun i hi => ?_⟩
  exact ⟨_, exec_writeIn hb hi v, read_write_same _ _ v, fun a ha => read_write_other _ ha v⟩

/-- A bus read looks at no byte that the host has read before. -/
theorem busRead_returnByte (v : Byte) (s : State) (a : BusAddr) : busRead (returnByte v s) a = busRead s a := rfl

theorem withLenLo_withLenLo (l : Len) (v : Byte) : withLenLo (withLenLo l v) v = withLenLo l v := by
  apply BitVec.eq_of_toNat_eq
  have hv := v.isLt
  simp only [toNat_withLenLo]
  omega

theorem withLenHi_withLenHi (l : Len) (v : Byte) : withLenHi (withLenHi l v) v = withLenHi l v := by
  apply BitVec.eq_of_toNat_eq
  simp only [toNat_withLenHi]
  omega

/-- A write that is performed and starts no command, once and for all: the place it goes to, and that the same write
again finds its byte there (R45). -/
theorem exec_hostWr_cases {s t : State} {a : BusAddr} {v : Byte} (h : exec (.hostWr a v) s = .next t)
    (ha : a ≠ 0x000) :
    exec (.hostWr a v) t = .next t ∧
    ((a = 0x004 ∧ t = { s with inLen := withLenLo s.inLen v }) ∨
     (a = 0x005 ∧ t = { s with inLen := withLenHi s.inLen v }) ∨
     (∃ i, locate a = .inBuf i ∧ t = { s with mem := s.mem.write (Config.inBase + i) v })) := by
  obtain ⟨hb, ⟨hl, -⟩ | ⟨hl, rfl⟩ | ⟨hl, rfl⟩ | ⟨i, hl, rfl⟩⟩ := busWrite_cases (exec_hostWr.mp h)
  · exact absurd (locate_eq_cmd.mp hl) ha
  · obtain rfl := locate_eq_inLenLo.mp hl
    refine ⟨?_, .inl ⟨rfl, rfl⟩⟩
    rw [exec_writeLenLo (s := { s with inLen := withLenLo s.inLen v }) hb, withLenLo_withLenLo]
  · obtain rfl := locate_eq_inLenHi.mp hl
    refine ⟨?_, .inr (.inl ⟨rfl, rfl⟩)⟩
    rw [exec_writeLenHi (s := { s with inLen := withLenHi s.inLen v }) hb, withLenHi_withLenHi]
  · refine ⟨exec_hostWr.mpr ?_, .inr (.inr ⟨i, hl, rfl⟩)⟩
    simp only [busWrite, hb, hl, Bool.false_eq_true, if_false, write_write_same]

/-- Settles O42: a read leaves nothing that the same read looks at; a write, the command start apart, changes the one
place it goes to. -/
theorem onlyCommandWritesHaveSideEffects : Obligations.OnlyCommandWritesHaveSideEffects := by
  refine ⟨fun s t a h => ?_, fun s t a v h ha => ?_⟩
  · obtain ⟨v, hv, rfl⟩ := exec_hostRd.mp h
    exact ⟨v, rfl, exec_hostRd_of_busRead ((busRead_returnByte v s a).trans hv)⟩
  · obtain ⟨hagain, ⟨rfl, rfl⟩ | ⟨rfl, rfl⟩ | ⟨i, hl, rfl⟩⟩ := exec_hostWr_cases h ha
    · exact ⟨rfl, hagain, .inl rfl, nofun, fun _ => ⟨rfl, toNat_withLenLo _ _⟩, nofun⟩
    · exact ⟨rfl, hagain, .inr (.inl rfl), nofun, nofun, fun _ => ⟨rfl, toNat_withLenHi _ _⟩⟩
    · refine ⟨rfl, hagain, .inr (.inr ⟨i, hl⟩), fun j hj => ?_, ?_, ?_⟩
      · obtain rfl : i = j := Location.inBuf.inj (hl.symm.trans hj)
        exact ⟨rfl, read_write_same _ _ v, fun b hb => read_write_other _ hb v⟩
      · rintro rfl
        cases hl
      · rintro rfl
        cases hl

end Sys2Proof.Proofs
end

section
/-! R28, R30 and R31 over a step: which operation of the block or of the host wrote KEY, IN_BUF or OUT_BUF. -/

namespace Sys2Proof.Proofs

open Sys2Proof.Machine Sys2Proof.Laws

/-- A host write changes no byte of OUT_BUF, and a byte of IN_BUF only if it is addressed to it (R93). -/
theorem hostWr_buffers {s t : State} {a : BusAddr} {v : Byte} (h : exec (.hostWr a v) s = .next t) {i : Nat}
    (hi : i < 512) :
    outByte t i = outByte s i ∧
    (inByte t i ≠ inByte s i → s.busy = false ∧ a = BitVec.ofNat 11 (0x200 + i) ∧ inByte t i = some v) := by
  obtain ⟨hidle, ⟨-, rfl⟩ | ⟨-, rfl⟩ | ⟨-, rfl⟩ | ⟨j, hl, rfl⟩⟩ := busWrite_cases (exec_hostWr.mp h)
  iterate 3 · exact ⟨rfl, absurd rfl⟩
  · obtain ⟨ha, hj⟩ := locate_eq_inBuf.mp hl
    have habove : Config.outBase + i ≠ Config.inBase + j := by simp only [Config.inBase, Config.outBase]; omega
    refine ⟨read_write_other _ habove v, fun hne => ?_⟩
    obtain rfl : i = j := by
      by_contra hij
      exact hne (read_write_other _ (by simpa using hij) v)
    refine ⟨hidle, BitVec.eq_of_toNat_eq ?_, read_write_same _ _ v⟩
    rw [ha, toNat_bufAddr (by omega)]

/-- Of the host's operations only reset changes KEY or a byte of OUT_BUF. -/
theorem hostOp_keeps_key_and_outBuf {op : HostOp} {s t : State} (h : hostOp op s = .next t) (hop : op ≠ .reset) :
    t.key = s.key ∧ ∀ i, i < 512 → outByte t i = outByte s i := by
  have hwrite {a : BusAddr} {v : Byte} (hw : exec (.hostWr a v) s = .next t) :
      t.key = s.key ∧ ∀ i, i < 512 → outByte t i = outByte s i := by
    obtain ⟨hkey, -⟩ := hostWr_frame hw
    exact ⟨hkey, fun i hi => (hostWr_buffers hw hi).1⟩
  rcases hostOp_cases h with ⟨_, _, -, hw⟩ | ⟨_, -, hr⟩ | ⟨_, _, _, -, -, hw⟩ | ⟨-, rfl⟩ | ⟨hreset, -⟩
  · exact hwrite hw
  · obtain ⟨v, -, rfl⟩ := exec_hostRd.mp hr
    exact ⟨rfl, fun _ _ => rfl⟩
  · exact hwrite hw
  · rw [pollAgain_returnByte]
    exact ⟨rfl, fun _ _ => rfl⟩
  · exact absurd hreset hop

/-- Of the host's operations only reset and a write to the byte itself change a byte of IN_BUF. -/
theorem hostOp_inByte {op : HostOp} {s t : State} (h : hostOp op s = .next t) {i : Nat} (hi : i < 512)
    (hne : inByte t i ≠ inByte s i) :
    op = .reset ∨ (s.busy = false ∧ ∃ v, inByte t i = some v ∧
      (op = .txn (writeWord (BitVec.ofNat 11 (0x200 + i)) v) ∨
        (op = .wrLast (BitVec.ofNat 11 (0x200 + i)) ∧ s.hostReads.head? = some v))) := by
  rcases hostOp_cases h with ⟨a, v, rfl, hw⟩ | ⟨_, -, hr⟩ | ⟨a, v, vs, rfl, hreads, hw⟩ | ⟨-, rfl⟩ | ⟨hreset, -⟩
  · obtain ⟨hidle, rfl, hv⟩ := (hostWr_buffers hw hi).2 hne
    exact .inr ⟨hidle, v, hv, .inl rfl⟩
  · obtain ⟨v, -, rfl⟩ := exec_hostRd.mp hr
    exact absurd rfl hne
  · obtain ⟨hidle, rfl, hv⟩ := (hostWr_buffers hw hi).2 hne
    exact .inr ⟨hidle, v, hv, .inr ⟨rfl, by rw [hreads, List.head?_cons]⟩⟩
  · rw [pollAgain_returnByte] at hne
    exact absurd rfl hne
  · exact .inl hreset

/-- A command never changes its input, and a reserved byte's completion changes no memory (R52, R65). -/
theorem blockStep_inByte {s t : State} (h : blockStep s = .next t) {i : Nat} (hi : i < 512) :
    inByte t i = inByte s i := by
  cases hd : decode (.command s.cmdLast) with
  | error e =>
    simp only [blockStep, hd] at h
    cases h
    rfl
  | ok c =>
    rw [blockStep_command hd] at h
    obtain ⟨e, -, rfl, -⟩ := exec_command_next (isCommand_of_decode hd) h
    obtain ⟨-, -, hkeep⟩ := e.leave_keeps_input c s
    exact hkeep i hi

/-- Settles O43: the block's step keeps IN_BUF and completes the command; the host's operations but reset keep OUT_BUF,
and those that change a byte of IN_BUF are writes to it. -/
theorem eachBufferHasOneWriter : Obligations.EachBufferHasOneWriter := by
  intro s t i h hi
  rcases step_turn h with ⟨hmoves, hbusy, hblock⟩ | ⟨-, hhost⟩
  · obtain ⟨hidle, -, -, -, -, hdone⟩ := blockStep_cases hblock
    exact ⟨fun hne => absurd (blockStep_inByte hblock hi) hne, fun _ => .inl ⟨hmoves, hbusy, hidle, hdone⟩⟩
  · rcases hostStep_cases hhost with ⟨-, rfl⟩ | ⟨op, rest, hp, hop⟩
    · exact ⟨absurd rfl, absurd rfl⟩
    · refine ⟨fun hne => ?_, fun hne => .inr ?_⟩
      · rcases hostOp_inByte hop hi hne with rfl | ⟨hidle, v, hv, hwriter⟩
        · exact .inr (by rw [hp, List.head?_cons])
        · refine .inl ⟨hidle, v, rest, hv, ?_⟩
          rcases hwriter with rfl | ⟨rfl, hlast⟩
          · exact .inl hp
          · exact .inr ⟨hp, hlast⟩
      · by_contra hreset
        have hop' : op ≠ .reset := fun he => hreset (by rw [hp, he, List.head?_cons])
        exact hne ((hostOp_keeps_key_and_outBuf hop hop').2 i hi)

/-- Only LOADKEY's end has a new key (R28, R85). -/
theorem CommandEnd.leave_key_of_ne {e : CommandEnd} {c : Instr} (he : e.Of c) (hload : c ≠ .loadkey) (s : State) :
    (e.leave c s).key = s.key := by
  cases e with
  | failed code => simp [leave, hload]
  | delivered out => simp only [leave]; split <;> rfl
  | keyLoaded k => exact absurd he hload

/-- LOADKEY keeps KEY, or succeeds with the byte at index 4 of its input as KEY (R85, R86). -/
theorem exec_loadkey_key {s t : State} (h : exec .loadkey s = .next t) :
    t.key = s.key ∨ (t.errCode = 0x00 ∧ t.keyValid = true ∧ inByte s 4 = some t.key) := by
  rcases command_cases (c := .loadkey) (.inr (.inr (.inl rfl))) s with ⟨-, h'⟩ | ⟨-, -, h'⟩ | ⟨p, -, hp, h'⟩ <;>
    rw [h'] at h <;> cases h
  · exact .inl rfl
  · rcases loadKeyFrom_cases p s with ⟨-, hload⟩ | ⟨k, hk, hload⟩ <;> rw [commandRule, hload]
    · exact .inl rfl
    · have hlen : 4 < p.length := (List.getElem?_eq_some_iff.mp hk).1
      exact .inr ⟨rfl, rfl, (hp.2 4 hlen).trans hk⟩

/-- Settles O34: of the commands only LOADKEY loads a key, and of the host's operations only reset writes it. -/
theorem keyIsWrittenOnlyByLoadKey : Obligations.KeyIsWrittenOnlyByLoadKey := by
  intro s t h hne
  obtain ⟨-, ⟨hbusy, c, hc, hexec⟩ | ⟨-, -, rfl⟩ | ⟨-, -, rfl⟩ | ⟨op, rest, hp, -, hop⟩⟩ := step_cases h
  · obtain ⟨e, he, rfl, -⟩ := exec_command_next (isCommand_of_decode hc) hexec
    have hload : c = .loadkey := not_not.mp fun hload => hne (e.leave_key_of_ne he hload s)
    subst hload
    obtain ⟨hok, hvalid, hkey⟩ := (exec_loadkey_key hexec).resolve_left hne
    have hcmd : s.cmdLast = 0x03 := Encoded.command.inj (decode_eq_ok_iff.mp hc)
    exact .inl ⟨hbusy, e.leave_busy _ s, hcmd, hok, hvalid, hkey⟩
  · exact absurd rfl hne
  · exact absurd rfl hne
  · by_cases hreset : op = .reset
    · subst hreset
      cases hop
      exact .inr ⟨by rw [hp, List.head?_cons], rfl⟩
    · exact absurd (hostOp_keeps_key_and_outBuf hop hreset).1 hne

end Sys2Proof.Proofs
end

section
/-! R101, checksum16: its loop as a closed sum of big-endian words, a trailing odd byte left out. -/

namespace Sys2Proof.Proofs

open Sys2Proof.Machine

/-- The sum of the big-endian words of `data`, without wrap-around (R101). -/
def wordSum (data : List Byte) : Nat :=
  ((List.range (data.length / 2)).map
    (fun i => 256 * (data.getD (2 * i) 0).toNat + (data.getD (2 * i + 1) 0).toNat)).sum

theorem wordSum_nil : wordSum [] = 0 := rfl

/-- A lone byte is no word. -/
theorem wordSum_singleton (b : Byte) : wordSum [b] = 0 := by
  have hlen : [b].length / 2 = 0 := by simp
  rw [wordSum, hlen]
  rfl

theorem wordSum_cons_cons (hi lo : Byte) (rest : List Byte) :
    wordSum (hi :: lo :: rest) = 256 * hi.toNat + lo.toNat + wordSum rest := by
  have hlen : (hi :: lo :: rest).length / 2 = rest.length / 2 + 1 := by simp only [List.length_cons]; omega
  rw [wordSum, hlen, List.range_succ_eq_map, List.map_cons, List.sum_cons, List.map_map]
  rfl

theorem toNat_append_byte (hi lo : Byte) : (hi ++ lo).toNat = 256 * hi.toNat + lo.toNat := by
  rw [BitVec.toNat_append, Nat.shiftLeft_eq, Nat.mul_comm, ← Nat.two_pow_add_eq_or_of_lt lo.isLt]

/-- The loop adds the words to its start, modulo 2^16. -/
theorem sumWords_eq : ∀ (s : BitVec 16) (data : List Byte), sumWords s data = s + BitVec.ofNat 16 (wordSum data)
  | s, [] => by rw [wordSum_nil, BitVec.add_zero]; rfl
  | s, [b] => by rw [wordSum_singleton, BitVec.add_zero]; rfl
  | s, hi :: lo :: rest => by
    have hword : hi ++ lo = BitVec.ofNat 16 (256 * hi.toNat + lo.toNat) := by
      rw [← toNat_append_byte, BitVec.ofNat_toNat]
      exact (BitVec.setWidth_eq _).symm
    rw [sumWords, sumWords_eq, wordSum_cons_cons, BitVec.ofNat_add, hword, BitVec.add_assoc]

theorem sumWords_append_odd : ∀ (s : BitVec 16) (data : List Byte) (b : Byte), data.length % 2 = 0 →
    sumWords s (data ++ [b]) = sumWords s data
  | _, [], _, _ => rfl
  | s, hi :: lo :: rest, b, h =>
    have heven : rest.length % 2 = 0 := (Nat.add_mod_right rest.length 2).symm.trans h
    sumWords_append_odd (s + (hi ++ lo)) rest b heven

theorem or_and_mask {n : Nat} (x mask : BitVec n) : (x ||| mask) &&& mask = mask := by
  ext i hi
  simpa using Or.inr

/-- Settles O48: the loop adds the closed sum to its start, modulo 2^16, and the mask is ORed in last. -/
theorem checksum16SumsBigEndianWords : Obligations.Checksum16SumsBigEndianWords := by
  refine ⟨fun data => ⟨?_, ?_⟩, fun data b h => ?_⟩
  · exact congrArg (· ||| 0x5115) ((sumWords_eq 0x0000 data).trans (BitVec.zero_add _))
  · exact or_and_mask _ _
  · rw [checksum16, checksum16, sumWords_append_odd _ _ _ h]

end Sys2Proof.Proofs
end

section
/-! R56, the host's operations on the machine: what `load` and `setlen` leave, and that issuing operations one by one
is a run of the machine on the whole program. -/

namespace Sys2Proof.Proofs

open Sys2Proof.Machine Sys2Proof.Laws
open Host (Outcome)

/-- Settles O50: the writes go to IN_BUF from `IN[0]` on and to IN_LEN, whatever program stood there before. -/
theorem loadAndSetlenMakeTheInput : Obligations.LoadAndSetlenMakeTheInput := by
  intro s bs hf hb hl
  have hprogram : drive (load bs ++ setlen (BitVec.ofNat 10 bs.length)) s =
      drive (load bs ++ setlen (BitVec.ofNat 10 bs.length)) { s with program := [] } := by
    cases bs <;> rfl
  have hdrive := drive_load_setlen (s := { s with program := [] }) hf hb rfl hl
  refine ⟨_, hprogram.trans hdrive, inputIs_loaded hl ⟨s.mem, rfl⟩ rfl, rfl, fun a ha => ?_⟩
  have houtside : ¬ (0x200 ≤ a ∧ a < 0x200 + bs.length) := by omega
  rw [read_writeSeq, if_neg houtside]

theorem andThen_eq_next {σ τ φ ρ : Type} {o : Outcome σ φ ρ} {k : σ → Outcome τ φ ρ} {t : τ}
    (h : andThen o k = .next t) : ∃ s, o = .next s ∧ k s = .next t := by
  cases o with
  | next s => exact ⟨s, rfl, h⟩
  | fault r => cases h
  | refused r => cases h

theorem exec_hostWr_program {s t : State} {a : BusAddr} {v : Byte} (h : exec (.hostWr a v) s = .next t)
    (p : List HostOp) : exec (.hostWr a v) { s with program := p } = .next { t with program := p } := by
  rw [exec_hostWr]
  obtain ⟨hb, ⟨hl, rfl⟩ | ⟨hl, rfl⟩ | ⟨hl, rfl⟩ | ⟨i, hl, rfl⟩⟩ := busWrite_cases (exec_hostWr.mp h)
  · simp only [busWrite, hb, hl, Bool.false_eq_true, if_false]
    rfl
  iterate 3 · simp only [busWrite, hb, hl, Bool.false_eq_true, if_false]

theorem hostOp_wrLast {s : State} {v : Byte} {vs : List Byte} (h : s.hostReads = v :: vs) (a : BusAddr) :
    hostOp (.wrLast a) s = exec (.hostWr a v) s := by
  simp only [hostOp, h]

/-- A host operation acts the same with more operations behind it, and what it puts back stands before them. -/
theorem hostOp_append {op : HostOp} {s t : State} (h : hostOp op s = .next t) (hs : s.program = [])
    (ops : List HostOp) : hostOp op { s with program := ops } = .next { t with program := t.program ++ ops } := by
  have hwrite {a : BusAddr} {v : Byte} (hw : exec (.hostWr a v) s = .next t) :
      exec (.hostWr a v) { s with program := ops } = .next { t with program := t.program ++ ops } := by
    obtain ⟨-, -, -, hprogram, -⟩ := hostWr_frame hw
    rw [hprogram, hs]
    exact exec_hostWr_program hw ops
  rcases hostOp_cases h with ⟨a, v, rfl, hw⟩ | ⟨a, rfl, hr⟩ | ⟨a, v, vs, rfl, hreads, hw⟩ | ⟨rfl, rfl⟩ | ⟨rfl, rfl⟩
  · rw [hostOp_txn (decode_writeWord a v)]
    exact hwrite hw
  · obtain ⟨v, hv, rfl⟩ := exec_hostRd.mp hr
    rw [hostOp_txn (decode_readWord a), returnByte_program, hs]
    exact exec_hostRd.mpr ⟨v, hv, rfl⟩
  · rw [hostOp_wrLast (s := { s with program := ops }) hreads]
    exact hwrite hw
  · have hstatus : statusByte { s with program := ops } = statusByte s := rfl
    simp only [hostOp, exec_readStatus, andThen_next, pollAgain_returnByte, hstatus, statusByte_bit0, hs]
    cases s.busy <;> rfl
  · simp only [hostOp, applyReset_program, hs]
    rfl

/-- What a host operation leaves to do: nothing, or itself, where it is a poll of a pending command. -/
theorem hostOp_leaves {op : HostOp} {s t : State} (h : hostOp op s = .next t) (hs : s.program = []) :
    t.program = [] ∨ (t.program = [op] ∧ s.busy = true ∧ t.busy = true ∧ t.delay = s.delay) := by
  have hwrite {a : BusAddr} {v : Byte} (hw : exec (.hostWr a v) s = .next t) : t.program = [] := by
    obtain ⟨-, -, -, hprogram, -⟩ := hostWr_frame hw
    rw [hprogram, hs]
  rcases hostOp_cases h with ⟨_, _, -, hw⟩ | ⟨_, -, hr⟩ | ⟨_, _, _, -, -, hw⟩ | ⟨rfl, rfl⟩ | ⟨-, rfl⟩
  · exact .inl (hwrite hw)
  · obtain ⟨v, -, rfl⟩ := exec_hostRd.mp hr
    exact .inl hs
  · exact .inl (hwrite hw)
  · rw [pollAgain_returnByte, statusByte_bit0]
    cases hb : s.busy with
    | true => exact .inr (by simp [hs])
    | false => exact .inl (by simp [hs])
  · exact .inl hs

theorem hostTurn_of_not_blockMoves {s : State} (h : blockMoves s = false) (hp : s.program ≠ []) :
    s.busy = false ∨ 0 < s.delay := by
  cases hb : s.busy with
  | false => exact .inl rfl
  | true =>
    have hdelay : s.delay ≠ 0 := by simpa [blockMoves, hb, hp] using h
    exact .inr (Nat.pos_of_ne_zero hdelay)

/-- A step of a host with one operation to do is also the step of a host that has more to do after it. -/
theorem step_append {s t : State} {op : HostOp} (hp : s.program = [op]) (h : step s = .next t) (ops : List HostOp) :
    step { s with program := op :: ops } = .next { t with program := t.program ++ ops } := by
  obtain ⟨hf, -⟩ := step_cases h
  rcases step_turn h with ⟨hmoves, hb, hblock⟩ | ⟨hmoves, hhost⟩
  · have hd : s.delay = 0 := by simpa [blockMoves, hb, hp] using hmoves
    obtain ⟨-, -, hprogram, -⟩ := blockStep_cases hblock
    rw [step_block (s := { s with program := op :: ops }) hf hb (.inl hd), hprogram, hp]
    rcases blockStep_withHost s with hfault | ⟨u, hnext⟩
    · cases hblock.symm.trans (hfault s.program s.hostReads)
    · cases hblock.symm.trans (hnext s.program s.hostReads)
      exact hnext (op :: ops) s.hostReads
  · have hturn := hostTurn_of_not_blockMoves hmoves (by simp [hp])
    simp only [hostStep, hp] at hhost
    rw [step_host (s := { s with program := op :: ops }) hf hturn rfl]
    exact hostOp_append hhost rfl ops

/-- How many steps a host with at most one operation to do may still need: one for each of the delay, the block's, and
the operation's own. -/
def stepsLeft (s : State) : Nat :=
  if s.program.isEmpty then 0 else if s.busy then s.delay + 2 else 1

theorem stepsLeft_nil {s : State} (h : s.program = []) : stepsLeft s = 0 := by
  simp [stepsLeft, h]

theorem stepsLeft_singleton {s : State} {op : HostOp} (h : s.program = [op]) :
    stepsLeft s = if s.busy then s.delay + 2 else 1 := by
  simp [stepsLeft, h]

theorem stepsLeft_pos {s : State} {op : HostOp} (h : s.program = [op]) : 0 < stepsLeft s := by
  rw [stepsLeft_singleton h]
  split <;> omega

theorem step_stepsLeft {s t : State} {op : HostOp} (hp : s.program = [op]) (h : step s = .next t) :
    (t.program = [] ∨ t.program = [op]) ∧ stepsLeft t < stepsLeft s := by
  rcases step_turn h with ⟨-, hb, hblock⟩ | ⟨hmoves, hhost⟩
  · obtain ⟨hidle, -, hprogram, -⟩ := blockStep_cases hblock
    have hone : t.program = [op] := hprogram.trans hp
    exact ⟨.inr hone, by simp [stepsLeft_singleton hone, stepsLeft_singleton hp, hidle, hb]⟩
  · have hturn := hostTurn_of_not_blockMoves hmoves (by simp [hp])
    simp only [hostStep, hp] at hhost
    rcases hostOp_leaves hhost rfl with hnone | ⟨hone, hpending, hpending', hdelay⟩
    · exact ⟨.inl hnone, (stepsLeft_nil hnone).trans_lt (stepsLeft_pos hp)⟩
    · rw [hostTurn_busy] at hpending
      have hd : 0 < s.delay := hturn.resolve_left (by simp [hpending])
      exact ⟨.inr hone, by simp [stepsLeft_singleton hone, stepsLeft_singleton hp, hpending, hpending', hdelay, hd]⟩

/-- Draining one operation performs it to its end, in steps that a host with more to do takes too. -/
theorem drain_runs {n : Nat} {s t : State} {op : HostOp} (hp : s.program = [op]) (hn : stepsLeft s ≤ n)
    (h : drain n s = .next t) (ops : List HostOp) :
    ∃ k, runSteps k { s with program := op :: ops } = .next { t with program := ops } := by
  induction n generalizing s with
  | zero =>
    have hpos := stepsLeft_pos hp
    omega
  | succ n ih =>
    simp only [drain, hp, List.isEmpty_cons, Bool.false_eq_true, if_false] at h
    obtain ⟨u, hstep, hrest⟩ := andThen_eq_next h
    obtain ⟨hleft, hless⟩ := step_stepsLeft hp hstep
    have hstep' := step_append hp hstep ops
    rcases hleft with hnone | hone
    · rw [drain_done hnone] at hrest
      cases hrest
      rw [hnone] at hstep'
      exact ⟨1, (runSteps_one _).trans hstep'⟩
    · obtain ⟨k, hk⟩ := ih hone (by omega) hrest
      rw [hone] at hstep'
      exact ⟨k + 1, by rw [runSteps, hstep']; exact hk⟩

theorem issue_runs {s t : State} {op : HostOp} (h : issue op s = .next t) (ops : List HostOp) :
    ∃ k, runSteps k { s with program := op :: ops } = .next { t with program := ops } := by
  have hn : stepsLeft { s with program := [op] } ≤ s.delay + 2 := by
    rw [stepsLeft_singleton rfl]
    split <;> simp
  exact drain_runs (s := { s with program := [op] }) rfl hn h ops

/-- Settles O51, by induction on the program: each operation's steps are taken with the rest of it still to do. -/
theorem driveIsARunOfTheMachine : Obligations.DriveIsARunOfTheMachine := by
  intro ops
  induction ops with
  | nil =>
    intro s t h
    cases h
    exact ⟨0, rfl⟩
  | cons op ops ih =>
    intro s t h
    obtain ⟨u, hissue, hdrive⟩ := andThen_eq_next h
    obtain ⟨m, hm⟩ := issue_runs hissue ops
    obtain ⟨n, hn⟩ := ih u t hdrive
    exact ⟨m + n, by rw [runSteps_add, hm]; exact hn⟩

end Sys2Proof.Proofs
end

section
/-! R134 with R70, R75, R85 and R88, the four commands over the bus: what the host gets for its data, and what becomes
of the key. -/

namespace Sys2Proof.Proofs

open Sys2Proof.Machine Sys2Proof.Laws

/-- A machine that has recorded no fault, has no command pending, and holds this KEY and KEY_VALID. -/
structure IdleWith (key : Byte) (valid : Bool) (s : State) : Prop where
  notFaulted : s.faultRecord = none
  notBusy : s.busy = false
  key_eq : s.key = key
  keyValid_eq : s.keyValid = valid

/-- Command `op` on `data`, run over the bus from `s`, gives the host `result` and leaves the machine idle with this
KEY and KEY_VALID. -/
def BlockGives (op : Byte) (data : List Byte) (s : State) (result : Except HostError (List Byte)) (key : Byte)
    (valid : Bool) : Prop :=
  ∃ t : State, IdleWith key valid t ∧ runBlock op data s = .next (result, t)

section
variable {s : State} {op : Byte} {c : Instr} {data : List Byte} {key key' : Byte} {valid valid' : Bool}
  (hs : IdleWith key valid s)
include hs

/-- The rule's result is the host's (R134), in the words of `BlockGives`. -/
theorem blockGives_ok (hd : decode (.command op) = .ok c) (hl : data.length ≤ 512) {x : List Byte}
    (hx : x.length ≤ 512)
    (hrule : ∀ s₁ : State, s₁.key = key → s₁.keyValid = valid → s₁.outLen = 0 →
      (commandRule c data s₁).errCode = 0x00 ∧ OutputIs (commandRule c data s₁) x ∧
        (commandRule c data s₁).key = key' ∧ (commandRule c data s₁).keyValid = valid') :
    BlockGives op data s (.ok x) key' valid' := by
  obtain ⟨hf, hb, rfl, rfl⟩ := hs
  obtain ⟨t, hft, hbt, hkt, hvt, hrun⟩ := runBlock_ok hf hb hd hl hx hrule
  exact ⟨t, ⟨hft, hbt, hkt, hvt⟩, hrun⟩

/-- The rule's error is the host's, by its class (R107). -/
theorem blockGives_error (hd : decode (.command op) = .ok c) (hl : data.length ≤ 512) {code : Byte}
    (hc : code ≠ 0x00)
    (hrule : ∀ s₁ : State, s₁.key = key → s₁.keyValid = valid →
      (commandRule c data s₁).errCode = code ∧ (commandRule c data s₁).key = key' ∧
        (commandRule c data s₁).keyValid = valid') :
    BlockGives op data s (.error (errorClass code)) key' valid' := by
  obtain ⟨hf, hb, rfl, rfl⟩ := hs
  obtain ⟨t, hft, hbt, hkt, hvt, hrun⟩ := runBlock_error hf hb hd hl hc hrule
  exact ⟨t, ⟨hft, hbt, hkt, hvt⟩, hrun⟩

theorem blockGives_frame {p : List Byte} (hl : p.length ≤ 254) :
    BlockGives 0x01 p s (.ok (frameOf p)) key valid := by
  refine blockGives_ok hs (c := .frame) rfl (by omega) (by rw [length_frameOf]; omega) fun s₁ hk hv _ => ?_
  rw [commandRule, frameBytes_ok hl]
  exact ⟨rfl, outputIs_deliver_frameOf s₁ hl, hk, hv⟩

/-- A payload too long for a frame is EncodingError, whether or not it can be loaded (R71, R103, log entry 9). -/
theorem blockGives_frame_long {p : List Byte} (hl : 254 < p.length) :
    BlockGives 0x01 p s (.error .encoding) key valid := by
  by_cases hload : p.length ≤ 512
  · refine blockGives_error hs (c := .frame) (code := 0x04) rfl hload (by decide) fun s₁ hk hv => ?_
    rw [commandRule, frameBytes_long hl]
    exact ⟨rfl, hk, hv⟩
  · exact ⟨s, hs, if_pos (Nat.not_le.mp hload)⟩

theorem blockGives_unframe {r q : List Byte} (hl : r.length ≤ 512) (h : unframeBytes r = .ok q) :
    BlockGives 0x02 r s (.ok q) key valid := by
  have hq : q.length ≤ 512 := (unframeBytes_length_le h).trans (by decide)
  refine blockGives_ok hs (c := .unframe) rfl hl hq fun s₁ hk hv _ => ?_
  rw [commandRule, h]
  exact ⟨rfl, outputIs_deliver hq s₁, hk, hv⟩

theorem blockGives_unframe_refused {r : List Byte} {code : ErrorCode} (hl : r.length ≤ 512)
    (h : unframeBytes r = .error code) :
    BlockGives 0x02 r s (.error (errorClass code.toByte)) key valid := by
  have hcode : code.toByte ≠ 0x00 := fun hzero => unframeBytes_ne_error_ok r (by rw [h, toByte_eq_zero.mp hzero])
  refine blockGives_error hs (c := .unframe) rfl hl hcode fun s₁ hk hv => ?_
  rw [commandRule, h]
  exact ⟨rfl, hk, hv⟩

/-- LOADKEY has no result, so its OUT_LEN is the 0 of its start (R60). -/
theorem blockGives_loadkey {info : List Byte} {k : Byte} (hl : info.length ≤ 512) (hk : info[4]? = some k) :
    BlockGives 0x03 info s (.ok []) k true := by
  refine blockGives_ok hs (c := .loadkey) rfl hl (by simp) fun s₁ _ _ hout => ?_
  rw [commandRule, loadKeyFrom_key hk]
  have hnone : OutputIs (complete .ok { s₁ with key := k, keyValid := true }) [] :=
    ⟨by rw [complete_outLen, hout]; rfl, nofun⟩
  exact ⟨rfl, hnone, rfl, rfl⟩

theorem blockGives_loadkey_short {info : List Byte} (hl : info.length < 5) :
    BlockGives 0x03 info s (.error (.protocol 0x05)) key false := by
  refine blockGives_error hs (c := .loadkey) (code := 0x05) rfl (by omega) (by decide) fun s₁ hk _ => ?_
  rw [commandRule, loadKeyFrom_short (List.getElem?_eq_none (by omega))]
  exact ⟨rfl, hk, rfl⟩

theorem blockGives_keyxor {b : List Byte} (hl : b.length ≤ 512) (hvalid : valid = true) :
    BlockGives 0x04 b s (.ok (xorBytes key b)) key false := by
  refine blockGives_ok hs (c := .keyxor) rfl hl (by rwa [length_xorBytes]) fun s₁ hk hv _ => ?_
  rw [commandRule, xorWithKey_valid (hv.trans hvalid), hk]
  exact ⟨rfl, outputIs_deliver_xorBytes key hl (dropKey s₁), hk, rfl⟩

end

/-- Settles O52: a payload is framed or refused by its length alone. -/
theorem frameOverTheBus : Obligations.FrameOverTheBus := by
  intro s p hf hb
  have hs : IdleWith s.key s.keyValid s := ⟨hf, hb, rfl, rfl⟩
  by_cases hl : p.length ≤ 254
  · obtain ⟨t, ⟨hft, hbt, hkt, hvt⟩, hrun⟩ := blockGives_frame hs hl
    exact ⟨t, hft, hbt, hkt, hvt, fun _ => hrun, fun hlong => by omega⟩
  · obtain ⟨t, ⟨hft, hbt, hkt, hvt⟩, hrun⟩ := blockGives_frame_long hs (Nat.not_le.mp hl)
    exact ⟨t, hft, hbt, hkt, hvt, fun hl' => absurd hl' hl, fun _ => hrun⟩

end Sys2Proof.Proofs
end

section
/-! R104 and R107, host operations put together: a session's state between two of them, going on after one that gives a
value, and ending with the first error. -/

namespace Sys2Proof.Proofs

open Sys2Proof.Machine Sys2Proof.Laws

/-- An idle session that has sent `sent` and whose machine holds this KEY and KEY_VALID. -/
structure SessionAt (sent : List (List Byte)) (key : Byte) (valid : Bool) (h : Session) : Prop where
  sent_eq : h.sent = sent
  block : IdleWith key valid h.block

/-- The host operation ends with `result` in an idle session that has sent `sent` and holds this KEY and KEY_VALID. -/
def Gives (o : HostResult (List Byte)) (result : Except HostError (List Byte)) (sent : List (List Byte)) (key : Byte)
    (valid : Bool) : Prop :=
  ∃ h, o = .next (result, h) ∧ SessionAt sent key valid h

variable {o : HostResult (List Byte)} {result : Except HostError (List Byte)} {sent sent' : List (List Byte)}
  {key key' : Byte} {valid valid' : Bool} {h : Session}

theorem sessionAt_self (hidle : SessionIdle h) : SessionAt h.sent h.block.key h.block.keyValid h :=
  ⟨rfl, hidle.1, hidle.2, rfl, rfl⟩

theorem Gives.endsWith (hg : Gives o result sent key valid) :
    ∃ h', EndsWith o result sent h' ∧ h'.block.key = key ∧ h'.block.keyValid = valid := by
  obtain ⟨h', ho, hsent, hf, hb, hk, hv⟩ := hg
  exact ⟨h', ⟨ho, hsent, hf, hb⟩, hk, hv⟩

theorem Gives.ends (hg : Gives o result sent key valid) : ∃ h', EndsWith o result sent h' := by
  obtain ⟨h', hends, -⟩ := hg.endsWith
  exact ⟨h', hends⟩

/-- After a value, the rest of a host operation runs on it (R107). -/
theorem Gives.thenHost_eq {v : List Byte} (hg : Gives o (.ok v) sent key valid)
    (k : List Byte → Session → HostResult (List Byte)) :
    ∃ h', SessionAt sent key valid h' ∧ thenHost o k = k v h' := by
  obtain ⟨h', rfl, hat⟩ := hg
  exact ⟨h', hat, rfl⟩

theorem Gives.thenHost_ok {v : List Byte} {k : List Byte → Session → HostResult (List Byte)}
    (hg : Gives o (.ok v) sent key valid)
    (hk : ∀ h, SessionAt sent key valid h → Gives (k v h) result sent' key' valid') :
    Gives (thenHost o k) result sent' key' valid' := by
  obtain ⟨h', hat, heq⟩ := hg.thenHost_eq k
  rw [heq]
  exact hk h' hat

theorem Gives.thenHost_error {e : HostError} {k : List Byte → Session → HostResult (List Byte)}
    (hg : Gives o (.error e) sent key valid) : Gives (thenHost o k) (.error e) sent key valid := by
  obtain ⟨h', rfl, hat⟩ := hg
  exact ⟨h', rfl, hat⟩

theorem BlockGives.onBlock {op : Byte} {data : List Byte} (hg : BlockGives op data h.block result key' valid')
    (hat : SessionAt sent key valid h) : Gives (onBlock op data h) result sent key' valid' := by
  obtain ⟨t, ht, hrun⟩ := hg
  exact ⟨{ h with block := t }, by rw [Machine.onBlock, hrun, andThen_next], hat.sent_eq, ht⟩

theorem send_none {tr : Transport} {msg : List Byte} (hat : SessionAt sent key valid h)
    (htr : tr (sent ++ [msg]) = none) :
    Gives (send tr msg h) (.error .transport) (sent ++ [msg]) key valid := by
  obtain ⟨rfl, hblock⟩ := hat
  exact ⟨{ h with sent := h.sent ++ [msg] }, by simp only [send, htr], rfl, hblock⟩

theorem send_some {tr : Transport} {msg reply : List Byte} (hat : SessionAt sent key valid h)
    (htr : tr (sent ++ [msg]) = some reply) :
    Gives (send tr msg h) (.ok reply) (sent ++ [msg]) key valid := by
  obtain ⟨rfl, hblock⟩ := hat
  exact ⟨{ h with sent := h.sent ++ [msg] }, by simp only [send, htr], rfl, hblock⟩

end Sys2Proof.Proofs
end

section
/-! R104, transceive: what UNFRAME makes of the reply's first 512 bytes, and a law for each outcome of the two
transport calls. -/

namespace Sys2Proof.Proofs

open Sys2Proof.Machine Sys2Proof.Laws

/-- The length byte is at most 255, so UNFRAME reads nothing past the first 257 bytes of a reply (R79). -/
theorem unframeBytes_take_bufSize (r : List Byte) : unframeBytes (r.take Config.bufSize) = unframeBytes r := by
  by_cases hl : r.length ≤ 512
  · rw [Config.bufSize, List.take_of_length_le hl]
  · have h1 : r[1]? = some r[1] := List.getElem?_eq_getElem (by omega)
    have hn := r[1].isLt
    have h1' : (r.take Config.bufSize)[1]? = some r[1] := (List.getElem?_take_of_lt (by decide)).trans h1
    have hlen : (r.take Config.bufSize).length = 512 := by rw [List.length_take, Config.bufSize]; omega
    rw [← unframeBytes_take h1' (by omega), ← unframeBytes_take h1 (by omega), List.take_take,
      Nat.min_eq_left (by rw [Config.bufSize]; omega)]

theorem unframeBytes_of_replyCarries {r q : List Byte} (h : ReplyCarries r q) : unframeBytes r = .ok q := by
  rcases h with ⟨hl, tail, rfl⟩ | ⟨rfl, tail, rfl⟩
  · exact unframeBytes_frame hl
  · exact unframeBytes_lengthZero rfl rfl

/-- A malformed reply is refused with its code, which is one of ProtocolError's (R107). -/
theorem unframeBytes_of_replyRefusedWith {r : List Byte} {code : Byte} (h : ReplyRefusedWith r code) :
    ∃ e : ErrorCode, unframeBytes r = .error e ∧ errorClass e.toByte = .protocol code := by
  rcases h with ⟨rfl, h0⟩ | ⟨rfl, h0, hshort⟩ | ⟨rfl, h0, n, h1, hlen, hsum⟩
  · exact ⟨.header, unframeBytes_header h0, by decide⟩
  · exact ⟨.short, unframeBytes_short h0 hshort, by decide⟩
  · exact ⟨.checksum, unframeBytes_checksum h0 h1 hlen hsum, by decide⟩

theorem length_le_of_replyCarries {r q : List Byte} (h : ReplyCarries r q) : q.length ≤ 254 :=
  unframeBytes_length_le (unframeBytes_of_replyCarries h)

section
variable {tr : Transport} {p : List Byte} {sent : List (List Byte)} {key : Byte} {valid : Bool} {h : Session}
  (hat : SessionAt sent key valid h)
include hat

theorem transceive_noProbe (hprobe : tr (sent ++ [keepAlive]) = none) :
    Gives (transceive tr p h) (.error .transport) (sent ++ [keepAlive]) key valid :=
  (send_none hat hprobe).thenHost_error

theorem transceive_long {x : List Byte} (hprobe : tr (sent ++ [keepAlive]) = some x) (hl : 254 < p.length) :
    Gives (transceive tr p h) (.error .encoding) (sent ++ [keepAlive]) key valid := by
  refine (send_some hat hprobe).thenHost_ok fun h₁ hat₁ => Gives.thenHost_error ?_
  exact (blockGives_frame_long hat₁.block hl).onBlock hat₁

/-- After the probe and FRAME, what is left of transceive is the real transmission and UNFRAME. -/
theorem transceive_framed {x : List Byte} (hprobe : tr (sent ++ [keepAlive]) = some x) (hl : p.length ≤ 254)
    {result : Except HostError (List Byte)}
    (hsend : ∀ h₂, SessionAt (sent ++ [keepAlive]) key valid h₂ →
      Gives (thenHost (send tr (frameOf p) h₂) fun reply h₃ => onBlock 0x02 (reply.take Config.bufSize) h₃) result
        (sent ++ [keepAlive, frameOf p]) key valid) :
    Gives (transceive tr p h) result (sent ++ [keepAlive, frameOf p]) key valid := by
  refine (send_some hat hprobe).thenHost_ok fun h₁ hat₁ => Gives.thenHost_ok ?_ hsend
  exact (blockGives_frame hat₁.block hl).onBlock hat₁

theorem transceive_noReply {x : List Byte} (hprobe : tr (sent ++ [keepAlive]) = some x) (hl : p.length ≤ 254)
    (hreply : tr (sent ++ [keepAlive, frameOf p]) = none) :
    Gives (transceive tr p h) (.error .transport) (sent ++ [keepAlive, frameOf p]) key valid := by
  refine transceive_framed hat hprobe hl fun h₂ hat₂ => Gives.thenHost_error ?_
  have hsent : sent ++ [keepAlive] ++ [frameOf p] = sent ++ [keepAlive, frameOf p] := List.append_assoc ..
  rw [← hsent] at hreply ⊢
  exact send_none hat₂ hreply

/-- With a reply, transceive ends as UNFRAME does on the reply's first 512 bytes. -/
theorem transceive_reply {x r : List Byte} (hprobe : tr (sent ++ [keepAlive]) = some x) (hl : p.length ≤ 254)
    (hreply : tr (sent ++ [keepAlive, frameOf p]) = some r) {result : Except HostError (List Byte)}
    (hunframe : ∀ s, IdleWith key valid s → BlockGives 0x02 (r.take Config.bufSize) s result key valid) :
    Gives (transceive tr p h) result (sent ++ [keepAlive, frameOf p]) key valid := by
  refine transceive_framed hat hprobe hl fun h₂ hat₂ => ?_
  have hsent : sent ++ [keepAlive] ++ [frameOf p] = sent ++ [keepAlive, frameOf p] := List.append_assoc ..
  rw [← hsent] at hreply ⊢
  exact (send_some hat₂ hreply).thenHost_ok fun h₃ hat₃ => (hunframe h₃.block hat₃.block).onBlock hat₃

theorem transceive_ok {x r q : List Byte} (hprobe : tr (sent ++ [keepAlive]) = some x) (hl : p.length ≤ 254)
    (hreply : tr (sent ++ [keepAlive, frameOf p]) = some r) (hr : ReplyCarries r q) :
    Gives (transceive tr p h) (.ok q) (sent ++ [keepAlive, frameOf p]) key valid := by
  refine transceive_reply hat hprobe hl hreply fun s hs => ?_
  exact blockGives_unframe hs (List.length_take_le ..)
    ((unframeBytes_take_bufSize r).trans (unframeBytes_of_replyCarries hr))

theorem transceive_refused {x r : List Byte} {code : Byte} (hprobe : tr (sent ++ [keepAlive]) = some x)
    (hl : p.length ≤ 254) (hreply : tr (sent ++ [keepAlive, frameOf p]) = some r) (hr : ReplyRefusedWith r code) :
    Gives (transceive tr p h) (.error (.protocol code)) (sent ++ [keepAlive, frameOf p]) key valid := by
  refine transceive_reply hat hprobe hl hreply fun s hs => ?_
  obtain ⟨e, he, hclass⟩ := unframeBytes_of_replyRefusedWith hr
  rw [← hclass]
  exact blockGives_unframe_refused hs (List.length_take_le ..) ((unframeBytes_take_bufSize r).trans he)

end

/-- Settles O53, a law of transceive for each outcome of its two transport calls. -/
theorem transceiveSendsProbeThenFrame : Obligations.TransceiveSendsProbeThenFrame := by
  intro tr p h hidle probe ends
  have hat := sessionAt_self hidle
  refine ⟨fun hprobe => (transceive_noProbe hat hprobe).endsWith, fun x hprobe => ⟨fun hl => ?_, fun hl => ?_⟩⟩
  · exact (transceive_long hat hprobe hl).endsWith
  · exact ⟨fun hreply => (transceive_noReply hat hprobe hl hreply).endsWith,
      fun r q hreply hr => (transceive_ok hat hprobe hl hreply hr).endsWith,
      fun r code hreply hr => (transceive_refused hat hprobe hl hreply hr).endsWith⟩

end Sys2Proof.Proofs
end

section
/-! R105 and R106, GetInfo and burnSeed: the device info, LOADKEY on it, and the burn request, which is one transceive
whatever the length of the seed. -/

namespace Sys2Proof.Proofs

open Sys2Proof.Machine Sys2Proof.Laws

/-- The GetInfo frame (R103). -/
def getInfoFrame : List Byte := [0x86, 0x02, 0x10, 0x10]

theorem frameOf_getInfoPayload : frameOf getInfoPayload = getInfoFrame := by decide

theorem length_getInfoPayload_le : getInfoPayload.length ≤ 254 := by decide

/-- What burnSeed does once the key is loaded. -/
def burnRequest (tr : Transport) (seed : List Byte) (h : Session) : HostResult (List Byte) :=
  if Config.bufSize < (burnBuffer seed).length then transceive tr (burnSeedPayload (burnBuffer seed)) h
  else thenHost (onBlock 0x04 (burnBuffer seed) h) fun x h' => transceive tr (burnSeedPayload x) h'

theorem burnSeed_eq (tr : Transport) (seed : List Byte) (h : Session) :
    burnSeed tr seed h =
      thenHost (getInfo tr h) fun info h₁ => thenHost (onBlock 0x03 info h₁) fun _ h₂ => burnRequest tr seed h₂ := rfl

theorem length_burnSeedPayload (x : List Byte) : (burnSeedPayload x).length = x.length + 1 := rfl

section
variable {tr : Transport} {seed : List Byte} {sent sent' : List (List Byte)} {key key' : Byte} {valid valid' : Bool}
  {h : Session}

/-- The burn request is a transceive, from a session that has sent nothing more, of a payload of five bytes more than
the seed: for a seed that fits in a frame, of 0x18 and the burn buffer under the key, which is then used up (R106). -/
theorem burnRequest_eq (hat : SessionAt sent key true h) :
    ∃ p valid' h', SessionAt sent key valid' h' ∧ p.length = seed.length + 5 ∧
      (seed.length ≤ 249 → p = 0x18 :: (burnBuffer seed).map (fun b => b ^^^ key) ∧ valid' = false) ∧
      burnRequest tr seed h = transceive tr p h' := by
  have hlen := length_burnBuffer seed
  unfold burnRequest
  split
  case isTrue hlong =>
    have hlong' : 512 < seed.length + 4 := by rwa [hlen] at hlong
    exact ⟨_, true, h, hat, by rw [length_burnSeedPayload, hlen], fun hshort => by omega, rfl⟩
  case isFalse hfits =>
    have hxor := (blockGives_keyxor hat.block (Nat.not_lt.mp hfits) rfl).onBlock hat
    obtain ⟨h', hat', heq⟩ := hxor.thenHost_eq fun x h' => transceive tr (burnSeedPayload x) h'
    exact ⟨burnSeedPayload (xorBytes key (burnBuffer seed)), false, h', hat',
      by rw [length_burnSeedPayload, length_xorBytes, hlen], fun _ => ⟨rfl, rfl⟩, heq⟩

/-- An error of GetInfo ends burnSeed (R107). -/
theorem burnSeed_of_getInfo_error {e : HostError} (hinfo : Gives (getInfo tr h) (.error e) sent' key' valid') :
    Gives (burnSeed tr seed h) (.error e) sent' key' valid' := by
  rw [burnSeed_eq]
  exact hinfo.thenHost_error

section
variable (hat : SessionAt sent key valid h) {x r : List Byte} (hprobe : tr (sent ++ [keepAlive]) = some x)
include hat hprobe

theorem burnSeed_noReply (hreply : tr (sent ++ [keepAlive, getInfoFrame]) = none) :
    Gives (burnSeed tr seed h) (.error .transport) (sent ++ [keepAlive, getInfoFrame]) key valid := by
  rw [← frameOf_getInfoPayload] at hreply ⊢
  exact burnSeed_of_getInfo_error (transceive_noReply hat hprobe length_getInfoPayload_le hreply)

theorem burnSeed_refused {code : Byte} (hreply : tr (sent ++ [keepAlive, getInfoFrame]) = some r)
    (hr : ReplyRefusedWith r code) :
    Gives (burnSeed tr seed h) (.error (.protocol code)) (sent ++ [keepAlive, getInfoFrame]) key valid := by
  rw [← frameOf_getInfoPayload] at hreply ⊢
  exact burnSeed_of_getInfo_error (transceive_refused hat hprobe length_getInfoPayload_le hreply hr)

/-- With device info, burnSeed goes on with LOADKEY on it. -/
theorem burnSeed_of_info {info : List Byte} (hreply : tr (sent ++ [keepAlive, getInfoFrame]) = some r)
    (hr : ReplyCarries r info) :
    ∃ h₁, SessionAt (sent ++ [keepAlive, getInfoFrame]) key valid h₁ ∧
      burnSeed tr seed h = thenHost (onBlock 0x03 info h₁) fun _ h₂ => burnRequest tr seed h₂ := by
  rw [← frameOf_getInfoPayload] at hreply ⊢
  exact (transceive_ok hat hprobe length_getInfoPayload_le hreply hr).thenHost_eq _

theorem burnSeed_infoShort {info : List Byte} (hreply : tr (sent ++ [keepAlive, getInfoFrame]) = some r)
    (hr : ReplyCarries r info) (hl : info.length < 5) :
    Gives (burnSeed tr seed h) (.error (.protocol 0x05)) (sent ++ [keepAlive, getInfoFrame]) key false := by
  obtain ⟨h₁, hat₁, heq⟩ := burnSeed_of_info hat hprobe hreply hr
  rw [heq]
  exact ((blockGives_loadkey_short hat₁.block hl).onBlock hat₁).thenHost_error

/-- With a key in the device info, burnSeed is from there on one transceive, the burn request. -/
theorem burnSeed_of_key {info : List Byte} {k : Byte}
    (hreply : tr (sent ++ [keepAlive, getInfoFrame]) = some r) (hr : ReplyCarries r info)
    (hk : info[4]? = some k) :
    ∃ p valid' h', SessionAt (sent ++ [keepAlive, getInfoFrame]) k valid' h' ∧
      p.length = seed.length + 5 ∧
      (seed.length ≤ 249 → p = 0x18 :: (burnBuffer seed).map (fun b => b ^^^ k) ∧ valid' = false) ∧
      burnSeed tr seed h = transceive tr p h' := by
  obtain ⟨h₁, hat₁, heq₁⟩ := burnSeed_of_info hat hprobe hreply hr
  have hl : info.length ≤ 512 := (length_le_of_replyCarries hr).trans (by decide)
  have hload := (blockGives_loadkey hat₁.block hl hk).onBlock hat₁
  obtain ⟨h₂, hat₂, heq₂⟩ := hload.thenHost_eq fun _ h₂ => burnRequest tr seed h₂
  obtain ⟨p, valid', h', hat', hp, hpayload, heq⟩ := burnRequest_eq (tr := tr) (seed := seed) hat₂
  exact ⟨p, valid', h', hat', hp, hpayload, heq₁.trans (heq₂.trans heq)⟩

end

end

/-- Settles O54: GetInfo, LOADKEY and the burn request each give their value, and the request carries the burn buffer
under the key just loaded. -/
theorem burnSeedSendsTheKeyedBurnBuffer : Obligations.BurnSeedSendsTheKeyedBurnBuffer := by
  intro tr seed info ack x y r₁ r₂ k h hidle hseed hk probe getInfoFrame burnFrame hprobe hinfo hr₁ hprobe₂ hburn hr₂
  have hsent (l : List (List Byte)) :
      h.sent ++ [probe, getInfoFrame] ++ l = h.sent ++ probe :: getInfoFrame :: l := List.append_assoc ..
  rw [← hsent] at hprobe₂ hburn ⊢
  obtain ⟨p, valid, h₃, hat₃, hp, hpayload, heq⟩ :=
    burnSeed_of_key (seed := seed) (sessionAt_self hidle) hprobe hinfo hr₁ hk
  obtain ⟨rfl, rfl⟩ := hpayload hseed
  rw [heq]
  exact (transceive_ok hat₃ hprobe₂ (by omega) hburn hr₂).endsWith

/-- Settles O55: at each point of burnSeed the host operation that fails is the last, and its error is the result. -/
theorem firstErrorEndsTheHostOperation : Obligations.FirstErrorEndsTheHostOperation := by
  intro tr seed h hidle probe getInfoFrame sent₁ sent₂ sent₃ ends
  have hat := sessionAt_self hidle
  have hsent (l : List (List Byte)) : sent₂ ++ l = h.sent ++ probe :: getInfoFrame :: l := List.append_assoc ..
  refine ⟨fun hprobe => ?_, fun x hprobe => ⟨fun hnone => ?_, fun r code hinfo hr => ?_, fun r info hinfo hr hl => ?_,
    fun r info k hinfo hr hk => ?_⟩⟩
  · exact (burnSeed_of_getInfo_error (transceive_noProbe hat hprobe)).ends
  · exact (burnSeed_noReply hat hprobe hnone).ends
  · exact (burnSeed_refused hat hprobe hinfo hr).ends
  · obtain ⟨h', hends, -, hvalid⟩ := (burnSeed_infoShort hat hprobe hinfo hr hl).endsWith
    exact ⟨h', hends, hvalid⟩
  · obtain ⟨p, valid, h₃, hat₃, hp, hpayload, heq⟩ := burnSeed_of_key (seed := seed) hat hprobe hinfo hr hk
    simp only [ends, heq, sent₃, ← hsent]
    refine ⟨fun hnone => ?_, fun y hprobe₂ => ⟨fun hlong => ?_, fun hseed hnone => ?_, fun hseed r' code hburn hr' =>
      ?_⟩⟩
    · exact (transceive_noProbe hat₃ hnone).ends
    · exact (transceive_long hat₃ hprobe₂ (by omega)).ends
    · obtain ⟨rfl, -⟩ := hpayload hseed
      exact (transceive_noReply hat₃ hprobe₂ (by omega) hnone).ends
    · obtain ⟨rfl, -⟩ := hpayload hseed
      exact (transceive_refused hat₃ hprobe₂ (by omega) hburn hr').ends

end Sys2Proof.Proofs
end
